-- ==== Sys2Proof/Word.lean ====
section
/-! DEFINITION. The block's word types (00_scope.md R10, R11) and its plainest arithmetic (R12). -/

namespace Sys2Proof

/-- An 8-bit value: a stream element, an element latch, a cell of the output buffer (R10, R11). -/
abbrev Byte := BitVec 8

/-- A 4-bit value: half a byte, one field of a control-byte pair (R10, R62). -/
abbrev Nibble := BitVec 4

/-- A control-byte pair as one 16-bit pattern, byte A in bits 15..8, byte B in bits 7..0 (R62). -/
abbrev PairWord := BitVec 16

/-- `ceil(a / b) = (a + b - 1) / b` (R12). -/
def ceilDiv (a b : Nat) : Nat := (a + b - 1) / b

end Sys2Proof
end

