-- ==== Sys2Proof/Config.lean ====
section
/-! DEFINITION. What is fixed for one instance of the block (00_scope.md R9), and the one family of free values
(the cursor positions after a failed or abandoned transaction: 60_exceptions.md R136, 92_eei_decisions.md D7). -/

namespace Sys2Proof.Config

/-- `COUNT_W`, the width of the `count` port, where there is a finite one. DESIGN CHOICE (log entry 4): the reference
model of 92_eei_decisions.md D2 takes `count` as an unbounded natural number, so there is no width here. Safe: every
count that a finite port admits is admitted. -/
def countWidth : Option Nat := none

/-- `ELEM_W`, the width of a stream element on the hardware's port (R9). -/
def elemWidth : Nat := 8

/-- FREE VALUE (log entry 1): the n-th draw of a cursor position the spec leaves arbitrary (R136, R151, D7). It has no
body, so no proof can use a value of it. -/
opaque freeCursor : Nat → Nat

end Sys2Proof.Config
end

