-- ==== Sys2Proof/Syntax.lean ====
section
/-! DEFINITION. The operations of the block (spec/opcode_table.json; 00_scope.md R2, "instruction" means one of these
operations) and the command that starts a transaction (10_state.md R22). -/

namespace Sys2Proof

/-- The three input streams' signals (20_memory.md R40): TMS, TDI and TDOM (the TDO-mask stream). -/
inductive Signal where
  | tms | tdi | tdom
deriving DecidableEq, Repr

/-- One of the caller's stream cursors. A command binds each of TMS, TDI and TDOM to one of them, so that a command can
share one cursor between two operands, as R54 speaks of. DESIGN CHOICE (log entry 6): the caller has three at a time. -/
inductive Cursor where
  | c0 | c1 | c2
deriving DecidableEq, Repr

/-- The operations, one constructor for each row of spec/opcode_table.json, in the table's order. A pair operation has
no operand of its own: it reads the element latches and the count registers (30_encoding.md R69). -/
inductive Instr where
  /-- ENCODE (R100): `count`, and the cursors bound to TMS, TDI and TDOM. `count` is an integer so that the
  InvalidArgument of R131 can be said (log entry 5); the hardware's port carries the non-negative ones. -/
  | encode (count : Int) (tms tdi tdom : Cursor)
  /-- FULL_LO (R90). -/
  | fullLo
  /-- FULL_HI (R91). -/
  | fullHi
  /-- TAIL_FULL_HI (R92). -/
  | tailFullHi
  /-- TAIL_PART_LO, k = 1 (R93). -/
  | tailPartLo1
  /-- TAIL_PART_LO, k = 2 (R93). -/
  | tailPartLo2
  /-- TAIL_PART_LO, k = 3 (R93). -/
  | tailPartLo3
  /-- TAIL_PART_HI, k = 1 (R94). -/
  | tailPartHi1
  /-- TAIL_PART_HI, k = 2 (R94). -/
  | tailPartHi2
  /-- TAIL_PART_HI, k = 3 (R94). -/
  | tailPartHi3
deriving DecidableEq, Repr

/-- What a start event carries (R22): `CMD.count` and the three stream cursors. -/
structure Command where
  count : Int
  tms : Cursor
  tdi : Cursor
  tdom : Cursor
deriving DecidableEq, Repr

end Sys2Proof
end

