-- ==== Sys2Proof/WellFormed.lean ====
section
/-! DEFINITION. Which instructions the hardware's command port can carry: a count that fits the unsigned port
(10_state.md R22, 92_eei_decisions.md D2) and three distinct cursors (20_memory.md R54, 70_reset_and_hazards.md R152).
A pair operation has no field to check. -/

namespace Sys2Proof

/-- The three cursors are distinct (R54, R152). -/
def cursorsDistinct (a b c : Cursor) : Bool := a != b && a != c && b != c

/-- `count` fits an unsigned port of width `w`; with no width, every natural number does (D2). -/
def countFits (w : Option Nat) (count : Int) : Bool :=
  match w with
  | none => decide (0 ≤ count)
  | some n => decide (0 ≤ count) && decide (count < (2 : Int) ^ n)

/-- The instruction is one that a command port of width `w` can carry. -/
def Instr.wfAt (w : Option Nat) : Instr → Bool
  | .encode count a b c => countFits w count && cursorsDistinct a b c
  | .fullLo => true
  | .fullHi => true
  | .tailFullHi => true
  | .tailPartLo1 => true
  | .tailPartLo2 => true
  | .tailPartLo3 => true
  | .tailPartHi1 => true
  | .tailPartHi2 => true
  | .tailPartHi3 => true

/-- The instruction is well formed for this instance's port. -/
def Instr.wf (i : Instr) : Bool := i.wfAt Config.countWidth

end Sys2Proof
end

