-- ==== Sys2Proof/Decode.lean ====
section
/-! DEFINITION. The operation map and the output format (30_encoding.md). The block fetches no instruction words
(20_memory.md R55): a pair operation is picked by the cycle class of `count` and the pair's place, never by the data
(R67), and what has bits is the control-byte pair it writes (R62). So a decoder here is given the place as well as the
bytes (`decodeAt`), or a whole buffer, whose length and valid-bits nibble fix `count` and with it every place
(`decodeBuffer`, 41_encode.md R115). ENCODE has no binary encoding; its command is a start event (R68). -/

namespace Sys2Proof

/-- Why bytes are no output of the named operation, or of the block at all. -/
inductive DecodeError where
  /-- Fewer than two bytes where a control-byte pair should stand (R62). -/
  | truncated
  /-- `ENCODE count` writes no pair at this place (R66). -/
  | noPair
  /-- The valid-bits nibble is not the one the operation at this place writes (R64, R65). -/
  | wrongValidBits
  /-- A buffer of an odd number of bytes (R66). -/
  | oddLength
  /-- A valid-bits nibble that no pair has (R65). -/
  | neverProduced
  /-- A partial valid-bits nibble at an offset other than 0 (R65). -/
  | partialNotFirst
deriving DecidableEq, Repr

/-! ### The operation map (R67) -/

/-- TAIL_PART_LO for `k` cycles; there is none for other `k` (R93). -/
def tailPartLo (k : Nat) : Option Instr :=
  match k with
  | 1 => some .tailPartLo1
  | 2 => some .tailPartLo2
  | 3 => some .tailPartLo3
  | _ => none

/-- TAIL_PART_HI for `k` cycles; there is none for other `k` (R94). -/
def tailPartHi (k : Nat) : Option Instr :=
  match k with
  | 1 => some .tailPartHi1
  | 2 => some .tailPartHi2
  | 3 => some .tailPartHi3
  | _ => none

/-- The pair operations of one full group, in the order they run (R100). -/
def fullOps : List Instr := [.fullLo, .fullHi]

/-- The pair operations of the tail group, in the order they run, for the registers `r` and `r4` (R67, R100, R107). -/
def tailOps (r r4 : Nat) : Option (List Instr) :=
  if 4 ≤ r then
    if r4 = 0 then some [.tailFullHi] else (tailPartLo r4).map fun i => [.tailFullHi, i]
  else (tailPartHi r4).map fun i => [i]

/-- How many pairs the tail of `ENCODE count` has (R67, R102). -/
def tailPairCount (count : Nat) : Nat :=
  (if 4 ≤ count % 8 then 1 else 0) + (if 0 < count % 4 then 1 else 0)

/-- The operation that writes pair `p` of the output of `ENCODE count`, that is offsets `2p` and `2p + 1` (R67, R46);
none where the output has no pair `p`. -/
def opAt (count p : Nat) : Option Instr :=
  if p < tailPairCount count then
    if 4 ≤ count % 8 then
      if p + 1 = tailPairCount count then some .tailFullHi else tailPartLo (count % 4)
    else tailPartHi (count % 4)
  else if p - tailPairCount count < 2 * (count / 8) then
    if (p - tailPairCount count) % 2 = 0 then some .fullLo else some .fullHi
  else none

/-- The valid-bits nibble a pair operation writes, as its row of spec/opcode_table.json fixes bits 3..0 (R64). -/
def validBits : Instr → Option Nibble
  | .encode _ _ _ _ => none
  | .fullLo => some 0xF
  | .fullHi => some 0xF
  | .tailFullHi => some 0xF
  | .tailPartLo1 => some 0x8
  | .tailPartLo2 => some 0xC
  | .tailPartLo3 => some 0xE
  | .tailPartHi1 => some 0x8
  | .tailPartHi2 => some 0xC
  | .tailPartHi3 => some 0xE

/-! ### The control-byte pair (R62) -/

/-- The high nibble of a byte of the output, bits 7..4. -/
def highNibble (x : Byte) : Nibble := x.extractLsb' 4 4

/-- The low nibble of a byte of the output, bits 3..0. -/
def lowNibble (x : Byte) : Nibble := x.extractLsb' 0 4

/-- How many cycles a pair with this valid-bits nibble carries; none for a nibble the block never writes (R64, R65). -/
def cyclesOf (v : Nibble) : Option Nat :=
  if v = 0xF then some 4
  else if v = 0xE then some 3
  else if v = 0xC then some 2
  else if v = 0x8 then some 1
  else none

/-- Read the control-byte pair at place `p` of the output of `ENCODE count`: the operation that wrote it, and the bytes
after it. -/
def decodeAt (count p : Nat) : List Byte → Except DecodeError (Instr × List Byte)
  | _ :: b :: rest =>
    match opAt count p with
    | none => .error .noPair
    | some i => if validBits i = some (lowNibble b) then .ok (i, rest) else .error .wrongValidBits
  | _ => .error .truncated

/-- The command of a start event is an ENCODE (R68). -/
def decodeCommand (c : Command) : Instr := .encode c.count c.tms c.tdi c.tdom

/-! ### A whole buffer (R66, R115) -/

/-- The pairs of a buffer, offset 0 first. -/
def pairsOf : List Byte → Except DecodeError (List (Byte × Byte))
  | [] => .ok []
  | [_] => .error .oddLength
  | a :: b :: rest =>
    match pairsOf rest with
    | .ok ps => .ok ((a, b) :: ps)
    | .error e => .error e

/-- `count`, read from a buffer's pairs: pair 0 carries the cycles its valid-bits nibble marks, every other pair
four (R65, R116). -/
def countOf : List (Byte × Byte) → Except DecodeError Nat
  | [] => .ok 0
  | (_, b) :: rest =>
    match cyclesOf (lowNibble b) with
    | none => .error .neverProduced
    | some k =>
      if rest.all (fun p => lowNibble p.2 = 0xF) then .ok (4 * rest.length + k)
      else if rest.all (fun p => (cyclesOf (lowNibble p.2)).isSome) then .error .partialNotFirst
      else .error .neverProduced

/-- The bits of a nibble, earliest cycle first (R63). -/
def nibbleBits (n : Nibble) : List Bool := [n.getLsbD 3, n.getLsbD 2, n.getLsbD 1, n.getLsbD 0]

/-- What a buffer says: how many cycles, which operation wrote each pair, and the bits of the three signals in cycle
order. -/
structure Decoded where
  count : Nat
  ops : List Instr
  tms : List Bool
  tdi : List Bool
  tdom : List Bool
deriving DecidableEq, Repr

/-- The bits a choice of nibble gives over a buffer's pairs, from the last pair down to pair 0 (R115), the first
`count` of them. -/
def signalBits (count : Nat) (pick : Byte × Byte → Nibble) (ps : List (Byte × Byte)) : List Bool :=
  (ps.reverse.flatMap fun p => nibbleBits (pick p)).take count

/-- Decode a whole output buffer (R115); bytes this block did not produce are rejected by name (R65). -/
def decodeBuffer (bs : List Byte) : Except DecodeError Decoded :=
  match pairsOf bs with
  | .error e => .error e
  | .ok ps =>
    match countOf ps with
    | .error e => .error e
    | .ok count =>
      .ok { count := count
            ops := (List.range ps.length).filterMap (opAt count)
            tms := signalBits count (fun p => highNibble p.1) ps
            tdi := signalBits count (fun p => lowNibble p.1) ps
            tdom := signalBits count (fun p => highNibble p.2) ps }

/-! ### Table words -/

/-- Byte A of a 16-bit pattern (R62). -/
def byteA (w : Nat) : Byte := BitVec.ofNat 8 (w / 256)

/-- Byte B of a 16-bit pattern (R62). -/
def byteB (w : Nat) : Byte := BitVec.ofNat 8 w

/-- The operation read from a table word. A word alone does not name its operation (R67): the table's rows share their
patterns. A word of 16 bits is read as a WHOLE buffer of one pair; then `L = 2`, so `count` is 1, 2, 3 or 4 and its
valid-bits nibble says which (log entry 9). -/
def decodeTableWord (nbits w : Nat) : Option Instr :=
  if nbits ≤ 16 then
    match decodeBuffer [byteA w, byteB w] with
    | .ok d => d.ops.head?
    | .error _ => none
  else none

/-! ### The encoder -/

/-- The two bytes a pair operation writes for the nibbles `m`, `d`, `o` it takes from the latches (R62); ENCODE has no
binary encoding (R68). -/
def encode (i : Instr) (m d o : Nibble) : Option (List Byte) :=
  match validBits i with
  | none => none
  | some v => some [m ++ d, o ++ v]

/-- The start event's command for an ENCODE; a pair operation has none (R68). -/
def encodeCommand : Instr → Option Command
  | .encode count a b c => some ⟨count, a, b, c⟩
  | .fullLo => none
  | .fullHi => none
  | .tailFullHi => none
  | .tailPartLo1 => none
  | .tailPartLo2 => none
  | .tailPartLo3 => none
  | .tailPartHi1 => none
  | .tailPartHi2 => none
  | .tailPartHi3 => none

end Sys2Proof
end

