-- ==== Sys2Proof/Machine/State.lean ====
section
/-! DEFINITION. The state of the block and of what its caller puts at its ports (10_state.md), plain data; the reasons
a step can stop; and the state after reset (R33, 70_reset_and_hazards.md R150). -/

namespace Sys2Proof.Machine

/-- The sequencer state `seq` (R28). `STATUS.state` is a function of it (Flags.lean). -/
inductive Seq where
  | idle | full | tail | done | error
deriving DecidableEq, Repr

/-- The two failure kinds (60_exceptions.md R130). -/
inductive ErrKind where
  | invalidArgument | inputExhausted
deriving DecidableEq, Repr

/-- One input stream with its cursor (20_memory.md R40, 10_state.md R30): the elements before the cursor, oldest first,
and those still to read. The cursor's position is the number taken. Elements are integers so that the InvalidArgument
of R41 can be said (log entry 5); an 8-bit port carries 0 to 255. -/
structure Stream where
  taken : List Int
  unread : List Int
deriving DecidableEq, Repr

/-- The position of a stream's cursor, `pos_S` (R30). -/
def Stream.pos (st : Stream) : Nat := st.taken.length

/-- The caller's three streams. -/
structure Streams where
  c0 : Stream
  c1 : Stream
  c2 : Stream
deriving DecidableEq, Repr

/-- Who acts in the next step, and how: the block has one caller and no concurrency of its own (00_scope.md R18), so a
run is a list of these. When the list is empty the encoder acts. -/
inductive Turn where
  /-- The caller does nothing; the sequencer takes its next step (41_encode.md R109). -/
  | encoder
  /-- The caller presents a start event (10_state.md R22), the first line of R109's table. -/
  | start (c : Command)
  /-- The caller calls `encode` and the transaction is one atomic step (41_encode.md R100, 10_state.md R35). -/
  | call (c : Command)
  /-- Reset (70_reset_and_hazards.md R150, R151). -/
  | reset
  /-- The caller or another agent moves a cursor or changes a stream's elements (20_memory.md R54). -/
  | setStream (c : Cursor) (st : Stream)
  /-- The caller reads STATUS (60_exceptions.md R140). -/
  | readStatus
  /-- The caller reads a cell of the result (10_state.md R31, R32). -/
  | readCell (off : Nat)
deriving DecidableEq, Repr

/-- The written cells of the output buffer, as (offset, byte) in strictly rising order of offset; a cell not listed is
unwritten (10_state.md R29). -/
abbrev Memory := List Host.Cell

/-- The offsets rise strictly: the canonical form of `Memory`. An unwritten cell has no value, so none is listed. -/
def Memory.wf : Memory → Bool
  | [] => true
  | [_] => true
  | c :: c' :: rest => decide (c.1 < c'.1) && Memory.wf (c' :: rest)

/-- The machine's state. -/
structure State where
  /-- Sequencer state (R28). -/
  seq : Seq
  /-- `STATUS.err`, 2 bits (R24). -/
  err : BitVec 2
  /-- The stream an InputExhausted was raised on, kept for diagnosis (R132 allows it; no claim may use it). -/
  errStream : Option Signal
  /-- The latched count (R25). -/
  cnt : Nat
  /-- Full groups, `cnt / 8` (R25). -/
  q : Nat
  /-- Cycles in the tail group, `cnt % 8` (R25). -/
  r : Nat
  /-- Cycles in the last partial sub-group, `cnt % 4` (R25). -/
  r4 : Nat
  /-- tailOffset (R25, 41_encode.md R102). -/
  T : Nat
  /-- Output length (R25, 41_encode.md R103); the buffer's cells are at offsets `0 .. L-1`. -/
  L : Nat
  /-- Group index (R27). -/
  i : Nat
  /-- Element latch of TMS (R26). -/
  m : Byte
  /-- Element latch of TDI (R26). -/
  d : Byte
  /-- Element latch of TDOM (R26). -/
  o : Byte
  /-- The output buffer; none until a start and after an error (R29, R33, R134). -/
  obuf : Option Memory
  /-- The cursor the transaction's TMS operand is bound to (R22). -/
  useTms : Cursor
  /-- The cursor the transaction's TDI operand is bound to (R22). -/
  useTdi : Cursor
  /-- The cursor the transaction's TDOM operand is bound to (R22). -/
  useTdom : Cursor
  /-- The caller's streams (R30). -/
  streams : Streams
  /-- Who acts next; the caller's side of the interface. -/
  schedule : List Turn
  /-- How many free values have been drawn. The MODEL's own field (log entry 1). -/
  draws : Nat
deriving DecidableEq, Repr

/-- Why the machine stops with a fault. -/
inductive Fault where
  /-- Raised by a start or a call while STATUS.state is BUSY: such a start has no step (R155, P7 of
  93_implementation_defined.md); a stuck state. Safe. -/
  | startWhileBusy
  /-- Raised by MemWrite when no buffer exists (R44: `0 <= off < L` cannot hold). Safe; no run from reset reaches it. -/
  | noBuffer
  /-- Raised by MemWrite at an offset that is not below `L` (R44, P4). Safe; no run from reset reaches it. -/
  | writeOutOfBounds
  /-- Raised by MemWrite to a cell already written (R44, P4). Safe; no run from reset reaches it. -/
  | overwrite
  /-- Raised by a caller's read of the result when STATUS.state is not DONE (R31, R32, R156). Safe. -/
  | noResult
  /-- Raised by a caller's read at an offset that is not below `L` (R45: no such cell). Safe. -/
  | readOutOfRange
  /-- Raised by a caller's read of an unwritten cell (R31, P3). Safe; no run from reset reaches it. -/
  | readUnwritten
  /-- Raised by a caller's read of STATUS when `STATUS.err` is the reserved value 3 (R24, P5). Safe; no run from reset
  reaches it. -/
  | reservedError
deriving DecidableEq, Repr

/-- Why the model gives a step no meaning. -/
inductive Refusal where
  /-- Raised by exec for an instruction that has no meaning yet. Safe. -/
  | notModelled (mnemonic : String)
  /-- Raised by a start or a call whose three cursors are not distinct (R54, D16). Safe. -/
  | sharedCursors
  /-- Raised when a stream is moved or changed during a transaction (R54, R154, D16). Safe. -/
  | streamTouched
  /-- Raised by a pair operation for a `k` outside 1..4, where VMASK has no meaning (R83, P6). Safe; no run from reset
  reaches it. -/
  | vmaskDomain
deriving DecidableEq, Repr

/-- What a step of this machine answers. -/
abbrev Result := Host.Outcome State Fault Refusal

/-- A stream with nothing in it. -/
def Stream.empty : Stream := ⟨[], []⟩

/-- The state after reset (R33, R150): IDLE, no error, no buffer. The spec leaves the datapath registers unspecified;
they are zero here (log entry 2, DESIGN CHOICE, unsafe). The streams are the caller's and the schedule is the model's:
both are empty until something is put there (log entries 3 and 7). -/
def State.reset : State where
  seq := .idle
  err := 0
  errStream := none
  cnt := 0
  q := 0
  r := 0
  r4 := 0
  T := 0
  L := 0
  i := 0
  m := 0
  d := 0
  o := 0
  obuf := none
  useTms := .c0
  useTdi := .c1
  useTdom := .c2
  streams := ⟨Stream.empty, Stream.empty, Stream.empty⟩
  schedule := []
  draws := 0

end Sys2Proof.Machine
end

