-- ==== Sys2Proof/Machine/Flags.lean ====
section
/-! DEFINITION. The status fields (10_state.md R23, R24, R28). The block has no flags or condition codes (R21); these
two fields are all it reports. -/

namespace Sys2Proof.Machine

/-- `STATUS.state` of a sequencer state: 0 IDLE, 1 BUSY, 2 DONE, 3 ERROR (R23, R28). -/
def statusState : Seq → BitVec 2
  | .idle => 0
  | .full => 1
  | .tail => 1
  | .done => 2
  | .error => 3

/-- The code of a failure kind in `STATUS.err` (R24, 60_exceptions.md R131, R132). -/
def errCode : ErrKind → BitVec 2
  | .invalidArgument => 1
  | .inputExhausted => 2

/-- A transaction is in progress: `STATUS.state = BUSY` (R23). -/
def State.busy (s : State) : Bool := statusState s.seq == 1

end Sys2Proof.Machine
end

