-- ==== Sys2Proof/Machine/Operands.lean ====
section
/-! DEFINITION. The datapath's operand forms (40_datapath.md R80 to R84), the place of each pair (30_encoding.md R67)
and the sizes of a transaction (41_encode.md R102, R103). -/

namespace Sys2Proof.Machine

/-! ### Extractor, shifter, packer, mask generator -/

/-- `HI(x) = x[7:4]`, cycles 0..3 of the group (R80). -/
def hi (x : Byte) : Nibble := (x >>> 4).truncate 4

/-- `LO(x) = x[3:0]`, cycles 4..7 of the group (R80). -/
def lo (x : Byte) : Nibble := (x &&& 0x0F#8).truncate 4

/-- High nibble to high half (R81). -/
def hiToHigh (x : Byte) : Byte := x &&& 0xF0#8

/-- High nibble to low half (R81). -/
def hiToLow (x : Byte) : Byte := x >>> 4

/-- Low nibble to high half (R81). -/
def loToHigh (x : Byte) : Byte := (x &&& 0x0F#8) <<< 4

/-- Low nibble to low half (R81). -/
def loToLow (x : Byte) : Byte := x &&& 0x0F#8

/-- `VMASK(k) = 0xF - ((1 << (4 - k)) - 1)` for `k` in 1..4 (R82); no other `k` has a meaning (R83). -/
def vmask (k : Nat) : Option Nibble :=
  if 1 ≤ k ∧ k ≤ 4 then some (0xF - (((1 : Nibble) <<< (4 - k)) - 1)) else none

/-- `PACK(h, l) = (h << 4) | l` (R84). -/
def pack (h l : Nibble) : Byte := (h.zeroExtend 8 <<< 4) ||| l.zeroExtend 8

/-- Which nibble of all three latches a pair operation takes (R69). -/
inductive Half where
  | high | low
deriving DecidableEq, Repr

/-- Byte A from the latches `m` and `d` (R90 to R94): low nibble `((m & 0x0F) << 4) | (d & 0x0F)`, high nibble
`(m & 0xF0) | (d >> 4)`. -/
def byteOfA (h : Half) (m d : Byte) : Byte :=
  match h with
  | .low => loToHigh m ||| loToLow d
  | .high => hiToHigh m ||| hiToLow d

/-- Byte B from the latch `o` and the valid-bits nibble (R90 to R94). -/
def byteOfB (h : Half) (o : Byte) (v : Nibble) : Byte :=
  match h with
  | .low => loToHigh o ||| v.zeroExtend 8
  | .high => hiToHigh o ||| v.zeroExtend 8

/-! ### Places -/

/-- Offset of byte A of FULL_LO: `T + 4i` (R67, R90). -/
def fullLoBase (s : State) : Nat := s.T + 4 * s.i

/-- Offset of byte A of FULL_HI: `T + 4i + 2` (R67, R91). -/
def fullHiBase (s : State) : Nat := s.T + 4 * s.i + 2

/-- Offset of byte A of TAIL_FULL_HI: `2 * (1 if r4 > 0 else 0)` (R67, R92). -/
def tailFullHiBase (s : State) : Nat := 2 * (if 0 < s.r4 then 1 else 0)

/-! ### Sizes -/

/-- tailOffset, `T = 2 * ((1 if count%8 >= 4 else 0) + (1 if count%4 > 0 else 0))` (R102). -/
def tailOffset (count : Nat) : Nat :=
  2 * ((if 4 ≤ count % 8 then 1 else 0) + (if 0 < count % 4 then 1 else 0))

/-- Output length, `L = 2 * ceil(count / 4)` (R103). -/
def outLen (count : Nat) : Nat := 2 * ceilDiv count 4

end Sys2Proof.Machine
end

