-- ==== Sys2Proof/Machine/Ops.lean ====
section
/-! DEFINITION. The named operations: running one thing after another, the output buffer's cells (20_memory.md R44),
StreamRead (R41) and the three reads of a step (R42), the start of a transaction (41_encode.md R101 to R103), and the
error ending, which is this block's taking of an exception (60_exceptions.md R134). The return from it is the next
accepted start, which clears `STATUS.err` (R138): it is `acceptStart` below. -/

namespace Sys2Proof.Machine

/-- Run `f` on the next state; a fault or a refusal ends the step. -/
def andThen (x : Result) (f : State → Result) : Result :=
  match x with
  | .next s => f s
  | .fault e => .fault e
  | .refused e => .refused e

/-- Run `f` on the next state unless an error has ended the transaction: after one, no further read or write happens
(R134). -/
def unlessError (x : Result) (f : State → Result) : Result :=
  andThen x fun s => if s.seq = .error then .next s else f s

/-! ### The output buffer -/

/-- The byte in a cell, none where it is unwritten (10_state.md R29). -/
def Memory.read : Memory → Nat → Option Byte
  | [], _ => none
  | (b, w) :: rest, a => if a = b then some w else Memory.read rest a

/-- Put a byte into a cell, keeping the offsets in rising order. -/
def Memory.write : Memory → Nat → Byte → Memory
  | [], a, v => [(a, v)]
  | (b, w) :: rest, a, v =>
    if a < b then (a, v) :: (b, w) :: rest
    else if a = b then (a, v) :: rest
    else (b, w) :: Memory.write rest a v

/-- The byte in cell `a` of the buffer; none where there is no buffer or the cell is unwritten. -/
def State.cell (s : State) (a : Nat) : Option Byte :=
  match s.obuf with
  | none => none
  | some mem => mem.read a

/-- Replace the buffer. -/
def State.setBuf (s : State) (mem : Memory) : State := { s with obuf := some mem }

/-- `MemWrite(off, 1, v)` (R44): in bounds and to an unwritten cell, else a fault. -/
def memWrite (off : Nat) (v : Byte) (s : State) : Result :=
  match s.obuf with
  | none => .fault .noBuffer
  | some mem =>
    if s.L ≤ off then .fault .writeOutOfBounds
    else if (mem.read off).isSome then .fault .overwrite
    else .next (s.setBuf (mem.write off v))

/-- What every pair operation does (40_datapath.md R95): take one nibble of the three latches and the mask for `k`
cycles, and write byte A at `base` and byte B at `base + 1`. -/
def writePair (h : Half) (k base : Nat) (s : State) : Result :=
  match vmask k with
  | none => .refused .vmaskDomain
  | some v =>
    andThen (memWrite base (byteOfA h s.m s.d) s) (memWrite (base + 1) (byteOfB h s.o v))

/-! ### The streams -/

def Streams.get (ss : Streams) : Cursor → Stream
  | .c0 => ss.c0
  | .c1 => ss.c1
  | .c2 => ss.c2

def Streams.set (ss : Streams) (c : Cursor) (st : Stream) : Streams :=
  match c with
  | .c0 => { ss with c0 := st }
  | .c1 => { ss with c1 := st }
  | .c2 => { ss with c2 := st }

/-- The cursor a signal's operand is bound to in this transaction. -/
def State.cursorOf (s : State) : Signal → Cursor
  | .tms => s.useTms
  | .tdi => s.useTdi
  | .tdom => s.useTdom

/-- The stream of a signal in this transaction. -/
def State.streamOf (s : State) (g : Signal) : Stream := s.streams.get (s.cursorOf g)

/-- Replace the stream a signal is bound to. -/
def State.setStreamOf (s : State) (g : Signal) (st : Stream) : State :=
  { s with streams := s.streams.set (s.cursorOf g) st }

/-- An element that the 8-bit port carries (R41). -/
def elemFits (e : Int) : Bool := decide (0 ≤ e) && decide (e ≤ 255)

/-- What a stream read gives: a byte and the state after, or an error. -/
inductive ReadOutcome where
  | ok (b : Byte) (s : State)
  | raised (e : ErrKind)
deriving DecidableEq, Repr

/-- `StreamRead(S)` (R41): InputExhausted at the end of the sequence; InvalidArgument for an element outside 0..255;
otherwise the element, and the cursor moves on by one. -/
def streamRead (g : Signal) (s : State) : ReadOutcome :=
  match (s.streamOf g).unread with
  | [] => .raised .inputExhausted
  | e :: rest =>
    if elemFits e then
      .ok (BitVec.ofInt 8 e) (s.setStreamOf g ⟨(s.streamOf g).taken ++ [e], rest⟩)
    else .raised .invalidArgument

/-- Write the element latch of a signal (10_state.md R26). -/
def State.setLatch (s : State) (g : Signal) (b : Byte) : State :=
  match g with
  | .tms => { s with m := b }
  | .tdi => { s with d := b }
  | .tdom => { s with o := b }

/-- What the reads of one step give: the state with the latches written, or an error, the stream it was raised on and
the state at that point. -/
inductive GroupOutcome where
  | ok (s : State)
  | raised (e : ErrKind) (g : Signal) (s : State)
deriving DecidableEq, Repr

/-- Read one element of a stream into its latch. -/
def readInto (g : Signal) (s : State) : GroupOutcome :=
  match streamRead g s with
  | .ok b s' => .ok (s'.setLatch g b)
  | .raised e => .raised e g s

/-- Go on with the next read unless one has raised an error. -/
def GroupOutcome.andThen (x : GroupOutcome) (f : State → GroupOutcome) : GroupOutcome :=
  match x with
  | .ok s => f s
  | .raised e g s => .raised e g s

/-- The reads of one step: one element from each stream, in the order TMS, TDI, TDOM (R42). -/
def readGroup (s : State) : GroupOutcome :=
  ((readInto .tms s).andThen (readInto .tdi)).andThen (readInto .tdom)

/-! ### Errors -/

/-- A stream with its cursor at an arbitrary place: the `n`-th draw picks among the positions the stream has. -/
def Stream.scatter (n : Nat) (st : Stream) : Stream :=
  let all := st.taken ++ st.unread
  let p := Config.freeCursor n % (all.length + 1)
  ⟨all.take p, all.drop p⟩

/-- All three cursors at arbitrary places: what a failed or abandoned transaction leaves (R136, R151, D7). -/
def State.scatterCursors (s : State) : State :=
  { s with
    streams := ⟨s.streams.c0.scatter s.draws, s.streams.c1.scatter (s.draws + 1), s.streams.c2.scatter (s.draws + 2)⟩
    draws := s.draws + 3 }

/-- What an error records beside its code: for InputExhausted the stream it was raised on, for diagnosis (R132 allows
it); for InvalidArgument nothing (R131: the code only). -/
def recorded (e : ErrKind) (g : Option Signal) : Option Signal :=
  match e with
  | .invalidArgument => none
  | .inputExhausted => g

/-- `raise E(info)` (R134): the buffer is discarded, `STATUS.err` takes the code, the sequencer goes to ERROR, and the
cursors are where no rule says. -/
def raise (e : ErrKind) (g : Option Signal) (s : State) : State :=
  { s.scatterCursors with obuf := none, err := errCode e, errStream := recorded e g, seq := .error }

/-- The reads of one step, then `f`; an error ends the transaction (R109's last line). -/
def readThen (f : State → Result) (s : State) : Result :=
  match readGroup s with
  | .ok s' => f s'
  | .raised e g s' => .next (raise e (some g) s')

/-! ### Start and end of a transaction -/

/-- The sequencer state after an accepted start (R109): FULL if there is a full group, else TAIL if there is a tail,
else DONE. -/
def firstSeq (count : Nat) : Seq :=
  if 0 < count / 8 then .full else if count % 8 = 0 then .done else .tail

/-- Bind the operands and clear the error fields (10_state.md R22, R24). -/
def State.bind (s : State) (a b c : Cursor) : State :=
  { s with useTms := a, useTdi := b, useTdom := c, err := 0, errStream := none }

/-- Latch `count`, compute the count registers, and give the transaction a buffer of `L` unwritten cells (R101 to
R103, R109). -/
def State.latchCount (s : State) (count : Nat) : State :=
  { s with
    cnt := count
    q := count / 8
    r := count % 8
    r4 := count % 4
    T := tailOffset count
    L := outLen count
    i := if 0 < count / 8 then count / 8 - 1 else s.i
    obuf := some []
    seq := firstSeq count }

/-- An accepted start (R100's first lines): a negative `count` is InvalidArgument before any stream is read. -/
def acceptStart (count : Int) (a b c : Cursor) (s : State) : State :=
  if count < 0 then raise .invalidArgument none (s.bind a b c)
  else (s.bind a b c).latchCount count.toNat

/-- The start event (10_state.md R22): accepted unless BUSY (R155), refused where two operands share a cursor (R54). -/
def startTransaction (count : Int) (a b c : Cursor) (s : State) : Result :=
  if s.busy then .fault .startWhileBusy
  else if cursorsDistinct a b c then .next (acceptStart count a b c s)
  else .refused .sharedCursors

/-- The end of a successful transaction (R24, R112). -/
def finish (s : State) : State := { s with seq := .done, err := 0 }

end Sys2Proof.Machine
end

