-- ==== Sys2Proof/Machine/Full.lean ====
section
/-! DEFINITION. The pair operations of a full group (40_datapath.md R90, R91). -/

namespace Sys2Proof.Machine

/-- FULL_LO (R90): the low nibble (cycles 4..7) at `T + 4i`, with `V = 0xF`. -/
def execFullLo (s : State) : Result := writePair .low 4 (fullLoBase s) s

/-- FULL_HI (R91): the high nibble (cycles 0..3) at `T + 4i + 2`, with `V = 0xF`. -/
def execFullHi (s : State) : Result := writePair .high 4 (fullHiBase s) s

/-- The pairs of one full group, the low nibble's first (R100, R105). -/
def fullPairs (s : State) : Result := andThen (execFullLo s) execFullHi

end Sys2Proof.Machine
end

