-- ==== Sys2Proof/Machine/Tail.lean ====
section
/-! DEFINITION. The pair operations of the tail group (40_datapath.md R92 to R94). -/

namespace Sys2Proof.Machine

/-- TAIL_FULL_HI (R92): the tail's first four cycles, at `2 * (1 if r4 > 0 else 0)`, with `V = 0xF`. -/
def execTailFullHi (s : State) : Result := writePair .high 4 (tailFullHiBase s) s

/-- TAIL_PART_LO with k = 1 (R93): one cycle of the tail's low nibble, at 0. -/
def execTailPartLo1 (s : State) : Result := writePair .low 1 0 s

/-- TAIL_PART_LO with k = 2 (R93): two cycles of the tail's low nibble, at 0. -/
def execTailPartLo2 (s : State) : Result := writePair .low 2 0 s

/-- TAIL_PART_LO with k = 3 (R93): three cycles of the tail's low nibble, at 0. -/
def execTailPartLo3 (s : State) : Result := writePair .low 3 0 s

/-- TAIL_PART_HI with k = 1 (R94): one cycle of the tail's high nibble, at 0. -/
def execTailPartHi1 (s : State) : Result := writePair .high 1 0 s

/-- TAIL_PART_HI with k = 2 (R94): two cycles of the tail's high nibble, at 0. -/
def execTailPartHi2 (s : State) : Result := writePair .high 2 0 s

/-- TAIL_PART_HI with k = 3 (R94): three cycles of the tail's high nibble, at 0. -/
def execTailPartHi3 (s : State) : Result := writePair .high 3 0 s

/-- TAIL_PART_LO for the register `r4` (R100); VMASK has no meaning for another `k` (R83). -/
def partLoFor (k : Nat) (s : State) : Result :=
  match k with
  | 1 => execTailPartLo1 s
  | 2 => execTailPartLo2 s
  | 3 => execTailPartLo3 s
  | _ => .refused .vmaskDomain

/-- TAIL_PART_HI for the register `r4` (R100); VMASK has no meaning for another `k` (R83). -/
def partHiFor (k : Nat) (s : State) : Result :=
  match k with
  | 1 => execTailPartHi1 s
  | 2 => execTailPartHi2 s
  | 3 => execTailPartHi3 s
  | _ => .refused .vmaskDomain

/-- The pairs of the tail group (R100, R107): TAIL_FULL_HI and, for a partial rest, TAIL_PART_LO; or TAIL_PART_HI
alone. -/
def tailPairs (s : State) : Result :=
  if 4 ≤ s.r then
    andThen (execTailFullHi s) fun s' => if s'.r4 = 0 then .next s' else partLoFor s'.r4 s'
  else partHiFor s.r4 s

end Sys2Proof.Machine
end

