-- ==== Sys2Proof/Machine/Encode.lean ====
section
/-! DEFINITION. ENCODE as one atomic operation (41_encode.md R100). -/

namespace Sys2Proof.Machine

/-- The loop over full groups, `i` from `n - 1` down to 0 (R100, R104). -/
def fullGroups : Nat → State → Result
  | 0, s => .next s
  | n + 1, s => unlessError (readThen fullPairs { s with i := n }) (fullGroups n)

/-- The tail group, where there is one (R100, R106, R107). -/
def tailGroup (s : State) : Result := if s.r = 0 then .next s else readThen tailPairs s

/-- ENCODE (R100): the accepted start, the full groups, the tail, and the end in DONE; or, on an error, the end in
ERROR (60_exceptions.md R134). -/
def execEncode (count : Int) (a b c : Cursor) (s : State) : Result :=
  unlessError (startTransaction count a b c s) fun s0 =>
    unlessError (fullGroups s0.q s0) fun s1 =>
      unlessError (tailGroup s1) fun s2 => .next (finish s2)

end Sys2Proof.Machine
end

