-- ==== Sys2Proof/Machine/Dispatch.lean ====
section
/-! DEFINITION. One arm for each operation of spec/opcode_table.json. -/

namespace Sys2Proof.Machine

def exec (i : Instr) (s : State) : Host.Outcome State Fault Refusal :=
  match i with
  | .encode count a b c => Sys2Proof.Machine.execEncode count a b c s
  | .fullLo => Sys2Proof.Machine.execFullLo s
  | .fullHi => Sys2Proof.Machine.execFullHi s
  | .tailFullHi => Sys2Proof.Machine.execTailFullHi s
  | .tailPartLo1 => Sys2Proof.Machine.execTailPartLo1 s
  | .tailPartLo2 => Sys2Proof.Machine.execTailPartLo2 s
  | .tailPartLo3 => Sys2Proof.Machine.execTailPartLo3 s
  | .tailPartHi1 => Sys2Proof.Machine.execTailPartHi1 s
  | .tailPartHi2 => Sys2Proof.Machine.execTailPartHi2 s
  | .tailPartHi3 => Sys2Proof.Machine.execTailPartHi3 s

end Sys2Proof.Machine
end

