-- ==== Sys2Proof/Machine/Sequencer.lean ====
section
/-! DEFINITION. The reference sequencer (41_encode.md R109): one step for each group. The operations of a step are
those the operation map names (Decode.lean), run by `exec`. -/

namespace Sys2Proof.Machine

/-- Run operations one after another. -/
def runOps : List Instr → State → Result
  | [], s => .next s
  | i :: rest, s => andThen (exec i s) (runOps rest)

/-- The operations the map names; where it names none, VMASK has no meaning (40_datapath.md R83). -/
def runSelected (ops : Option (List Instr)) (s : State) : Result :=
  match ops with
  | none => .refused .vmaskDomain
  | some l => runOps l s

/-- The way on from a FULL step (R109): the next group if `i > 0`, else the tail if there is one, else the end. -/
def advance (s : State) : State :=
  if 0 < s.i then { s with i := s.i - 1 }
  else if s.r = 0 then finish s
  else { s with seq := .tail }

/-- A FULL step: reads, the two pairs of group `i`, and the way on (R104, R105, R109). -/
def fullStep (s : State) : Result :=
  unlessError (readThen (runSelected (some fullOps)) s) fun s' => .next (advance s')

/-- A TAIL step: reads, the tail's pairs, and the end (R106, R107, R109). -/
def tailStep (s : State) : Result :=
  unlessError (readThen (runSelected (tailOps s.r s.r4)) s) fun s' => .next (finish s')

/-- The encoder's step. Outside a transaction it has nothing to do: it waits for a start (70_reset_and_hazards.md
R150). -/
def encoderStep (s : State) : Result :=
  match s.seq with
  | .full => fullStep s
  | .tail => tailStep s
  | .idle => .next s
  | .done => .next s
  | .error => .next s

end Sys2Proof.Machine
end

