-- ==== Sys2Proof/Machine/Caller.lean ====
section
/-! DEFINITION. The caller's side of the interface: what it may do to the block (10_state.md R22, 20_memory.md R54,
70_reset_and_hazards.md R150 to R156) and what it can see of it (10_state.md R32, R35). -/

namespace Sys2Proof.Machine

/-- Reset (R150, R151): the block as `State.reset` has it. The streams stay the caller's; a transaction under way is
abandoned and its cursors are where no rule says. -/
def resetBlock (s : State) : State :=
  let s' := if s.busy then s.scatterCursors else s
  { State.reset with streams := s'.streams, schedule := s'.schedule, draws := s'.draws }

/-- A cell of the result (R31, R32): only at DONE, only inside the buffer, and never an unwritten cell. -/
def callerRead (s : State) (off : Nat) : Except Fault Byte :=
  if s.seq = .done then
    if off < s.L then
      match s.cell off with
      | some b => .ok b
      | none => .error .readUnwritten
    else .error .readOutOfRange
  else .error .noResult

/-- The delivered buffer: all `L` bytes at DONE (R32, R112), nothing in any other state. -/
def result (s : State) : Option (List Byte) :=
  if s.seq = .done then (List.range s.L).mapM s.cell else none

/-- What the caller sees (R35). -/
structure Observation where
  status : BitVec 2
  err : BitVec 2
  result : Option (List Byte)
  /-- The positions of the caller's three cursors; none while BUSY. -/
  cursors : Option (Nat × Nat × Nat)
deriving DecidableEq, Repr

/-- The positions of the caller's cursors, as the caller sees them: never a partial advance (20_memory.md R51), so
nothing while a transaction is in progress. -/
def cursorsSeen (s : State) : Option (Nat × Nat × Nat) :=
  if s.busy then none else some (s.streams.c0.pos, s.streams.c1.pos, s.streams.c2.pos)

def observe (s : State) : Observation := ⟨statusState s.seq, s.err, result s, cursorsSeen s⟩

/-- One turn of the schedule. -/
def takeTurn (t : Turn) (s : State) : Result :=
  match t with
  | .encoder => encoderStep s
  | .start c => startTransaction c.count c.tms c.tdi c.tdom s
  | .call c => exec (decodeCommand c) s
  | .reset => .next (resetBlock s)
  | .setStream c st => if s.busy then .refused .streamTouched else .next { s with streams := s.streams.set c st }
  | .readStatus => if s.err = 3 then .fault .reservedError else .next s
  | .readCell off =>
    match callerRead s off with
    | .ok _ => .next s
    | .error f => .fault f

/-- A transaction whose whole output is the one pair `w`, standing before its only step: `count` is the pair's number of
cycles, so the step is a TAIL step, and the streams hold one element each, whose high nibbles are the pair's (log entry
9). -/
def loadPair (w k : Nat) (s : State) : State :=
  let elem (n : Nibble) : Stream := ⟨[], [Int.ofNat (16 * n.toNat)]⟩
  { s.bind .c0 .c1 .c2 with
    cnt := k
    q := 0
    r := k
    r4 := k % 4
    T := 2
    L := 2
    obuf := some []
    seq := .tail
    streams := ⟨elem (highNibble (byteA w)), elem (lowNibble (byteA w)), elem (highNibble (byteB w))⟩
    schedule := .encoder :: s.schedule }

end Sys2Proof.Machine
end

