-- ==== Sys2Proof/Machine/Step.lean ====
section
/-! DEFINITION. One step of the machine. The block runs no program and has no program counter (10_state.md R21,
20_memory.md R55): the schedule says who acts, and the sequencer state says what the encoder does next. -/

namespace Sys2Proof.Machine

/-- One step: the schedule's first turn, or the encoder's step when nothing is scheduled. -/
def step (s : State) : Host.Outcome State Fault Refusal :=
  match s.schedule with
  | [] => encoderStep s
  | t :: rest => takeTurn t { s with schedule := rest }

/-- `s` made ready so that the next step runs the operation that `decodeTableWord` reads from the word, and it alone
(log entry 9); `s` itself where it reads none. -/
def State.withFetchWord (s : State) (nbits w : Nat) : State :=
  match decodeTableWord nbits w, cyclesOf (lowNibble (byteB w)) with
  | some _, some k => loadPair w k s
  | _, _ => s

end Sys2Proof.Machine
end

