-- ==== Sys2Proof/Safety.lean ====
section
/-! DEFINITION. The words the statements are written in: runs, whose turn it is, what the caller supplies, the
invariant of the machine, and the bits of a stream. -/

namespace Sys2Proof.Machine

/-! ### Runs -/

/-- `k` steps of the machine. -/
def run (k : Nat) (s : State) : Host.Outcome State Fault Refusal := Host.Core.run Sys2Proof.core k s

/-- The encoder acts next, and `s` without that turn is `s'`. -/
def EncoderActs (s s' : State) : Prop :=
  (s.schedule = [] ∧ s' = s) ∨ ∃ rest, s.schedule = .encoder :: rest ∧ s' = { s with schedule := rest }

/-- A transaction that ended in success; one that ended in ERROR is never a success (00_scope.md R19). -/
def Succeeded (s : State) : Prop := s.seq = .done

/-- How many steps the transaction still takes if nothing else acts (41_encode.md R109, 70_reset_and_hazards.md R160). -/
def stepsLeft (s : State) : Nat :=
  match s.seq with
  | .full => s.i + 1 + (if s.r = 0 then 0 else 1)
  | .tail => 1
  | .idle => 0
  | .done => 0
  | .error => 0

/-! ### What the caller supplies -/

/-- A list of bytes as a stream's elements. -/
def byteElems (bs : List Byte) : List Int := bs.map fun b => (b.toNat : Int)

/-- The stream at cursor `c` has exactly these bytes next. -/
def Supplies (s : State) (c : Cursor) (bs : List Byte) : Prop :=
  ∃ rest, (s.streams.get c).unread = byteElems bs ++ rest

/-- The caller's part of the contract of `ENCODE count` (70_reset_and_hazards.md R152), with the bytes named: no
transaction under way, three distinct cursors, and `ceil(count / 8)` bytes at each. -/
structure Ready (s : State) (count : Nat) (a b c : Cursor) (tms tdi tdom : List Byte) : Prop where
  notBusy : s.busy = false
  distinct : cursorsDistinct a b c = true
  tms_length : tms.length = ceilDiv count 8
  tdi_length : tdi.length = ceilDiv count 8
  tdom_length : tdom.length = ceilDiv count 8
  tms_there : Supplies s a tms
  tdi_there : Supplies s b tdi
  tdom_there : Supplies s c tdom

/-- A stream whose cursor has moved over its next `n` elements (20_memory.md R43). -/
def Stream.moved (n : Nat) (st : Stream) : Stream := ⟨st.taken ++ st.unread.take n, st.unread.drop n⟩

/-- All three streams moved on by `n`. -/
def Streams.moved (n : Nat) (ss : Streams) : Streams := ⟨ss.c0.moved n, ss.c1.moved n, ss.c2.moved n⟩

/-- The same sequences, with the cursors anywhere. -/
def Streams.SameSequences (ss ss' : Streams) : Prop :=
  ∀ c, (ss.get c).taken ++ (ss.get c).unread = (ss'.get c).taken ++ (ss'.get c).unread

/-- The error a read of this stream would raise, if any: exhaustion before the element's range (R135). -/
def headError (st : Stream) : Option ErrKind :=
  match st.unread with
  | [] => some .inputExhausted
  | e :: _ => if elemFits e then none else some .invalidArgument

/-- The first error the reads of the next step would raise, in the order TMS, TDI, TDOM (R135). -/
def groupError (s : State) : Option ErrKind :=
  ((headError (s.streamOf .tms)).or (headError (s.streamOf .tdi))).or (headError (s.streamOf .tdom))

/-- The element a read of this stream would give. -/
def headByte (st : Stream) : Byte := BitVec.ofInt 8 (st.unread.headD 0)

/-- The state after the three reads of a step that raise no error (R42). -/
def State.afterReads (s : State) : State :=
  { s with
    m := headByte (s.streamOf .tms)
    d := headByte (s.streamOf .tdi)
    o := headByte (s.streamOf .tdom)
    streams := s.streams.moved 1 }

/-! ### Bits of a stream and of the output (00_scope.md R14, 41_encode.md R113) -/

/-- The bit of cycle `c` in a stream's bytes: bit `7 - (c % 8)` of element `c / 8` (R14). -/
def cycleBit (bs : List Byte) (c : Nat) : Bool := (bs.getD (c / 8) 0).getLsbD (7 - c % 8)

/-- Bit `n` of the byte at an offset of a delivered buffer. -/
def bufBit (buf : List Byte) (off n : Nat) : Bool := (buf.getD off 0).getLsbD n

/-- The valid-bits nibble of pair `p` of a buffer (30_encoding.md R62, R66). -/
def validAt (buf : List Byte) (p : Nat) : Nibble := lowNibble (buf.getD (2 * p + 1) 0)

/-- A valid-bits nibble that some pair has (30_encoding.md R64). -/
def IsValidBits (v : Nibble) : Prop := v = 0xF ∨ v = 0xE ∨ v = 0xC ∨ v = 0x8

/-- The pair of a buffer that holds cycle `c` of `count`: `p = P - 1 - c / 4` (R113). -/
def pairOf (count c : Nat) : Nat := ceilDiv count 4 - 1 - c / 4

/-- The closed form of the output of `ENCODE count` (R113): its length, and every bit of it. -/
structure ClosedForm (count : Nat) (tms tdi tdom buf : List Byte) : Prop where
  length : buf.length = 2 * ceilDiv count 4
  tms : ∀ c, c < 4 * ceilDiv count 4 → bufBit buf (2 * pairOf count c) (7 - c % 4) = cycleBit tms c
  tdi : ∀ c, c < 4 * ceilDiv count 4 → bufBit buf (2 * pairOf count c) (3 - c % 4) = cycleBit tdi c
  tdom : ∀ c, c < 4 * ceilDiv count 4 → bufBit buf (2 * pairOf count c + 1) (7 - c % 4) = cycleBit tdom c
  valid : ∀ c, c < 4 * ceilDiv count 4 → bufBit buf (2 * pairOf count c + 1) (3 - c % 4) = decide (c < count)

/-! ### Pair operations -/

/-- A pair operation completes wherever its two cells are in the buffer and unwritten, writes byte `byA` at the base and
byte `byB` after it, and changes nothing else: no other cell and no other field (40_datapath.md R95). -/
def WritesPair (i : Instr) (base : State → Nat) (byA byB : State → Byte) : Prop :=
  ∀ s mem, s.obuf = some mem → base s + 1 < s.L → mem.read (base s) = none → mem.read (base s + 1) = none →
    ∃ mem', exec i s = .next { s with obuf := some mem' } ∧ mem'.read (base s) = some (byA s) ∧
      mem'.read (base s + 1) = some (byB s) ∧
      (∀ a, a ≠ base s → a ≠ base s + 1 → mem'.read a = mem.read a) ∧ (mem.wf = true → mem'.wf = true)

/-- The offset of byte A of a pair operation (30_encoding.md R67); ENCODE has none. -/
def pairBase (s : State) : Instr → Option Nat
  | .encode _ _ _ _ => none
  | .fullLo => some (fullLoBase s)
  | .fullHi => some (fullHiBase s)
  | .tailFullHi => some (tailFullHiBase s)
  | .tailPartLo1 => some 0
  | .tailPartLo2 => some 0
  | .tailPartLo3 => some 0
  | .tailPartHi1 => some 0
  | .tailPartHi2 => some 0
  | .tailPartHi3 => some 0

/-- The nibble a pair operation takes from each of the three latches (30_encoding.md R69, 40_datapath.md R90 to R94);
ENCODE takes none. -/
def nibbleOf (x : Byte) : Instr → Option Nibble
  | .encode _ _ _ _ => none
  | .fullLo => some (lo x)
  | .fullHi => some (hi x)
  | .tailFullHi => some (hi x)
  | .tailPartLo1 => some (lo x)
  | .tailPartLo2 => some (lo x)
  | .tailPartLo3 => some (lo x)
  | .tailPartHi1 => some (hi x)
  | .tailPartHi2 => some (hi x)
  | .tailPartHi3 => some (hi x)

/-! ### What the caller can tell apart (10_state.md R35) -/

/-- Two answers that look the same to the caller: the same observation, or the same stop. -/
def SameToCaller (x y : Result) : Prop :=
  match x, y with
  | .next s, .next t => observe s = observe t
  | .fault e, .fault e' => e = e'
  | .refused e, .refused e' => e = e'
  | _, _ => False

/-! ### The invariant -/

/-- The count registers hold what an accepted start computes from `cnt` (10_state.md R25, 41_encode.md R101 to R103). -/
structure CountRegs (s : State) : Prop where
  q : s.q = s.cnt / 8
  r : s.r = s.cnt % 8
  r4 : s.r4 = s.cnt % 4
  T : s.T = tailOffset s.cnt
  L : s.L = outLen s.cnt

/-- The cells from `first` up to `L` are written, and no other. -/
def WrittenFrom (s : State) (first : Nat) : Prop := ∀ a, (s.cell a).isSome = true ↔ first ≤ a ∧ a < s.L

/-- What holds of the fields in each sequencer state: which error code STATUS has (R23, R24), whether there is a buffer
(R29, R33, R134), and how far the transaction has written it (R104 to R108). -/
def SeqFields (s : State) : Prop :=
  match s.seq with
  | .idle => s.err = 0 ∧ s.obuf = none
  | .full => s.err = 0 ∧ s.obuf.isSome = true ∧ CountRegs s ∧ s.i < s.q ∧ WrittenFrom s (s.T + 4 * (s.i + 1))
  | .tail => s.err = 0 ∧ s.obuf.isSome = true ∧ CountRegs s ∧ s.r ≠ 0 ∧ WrittenFrom s s.T
  | .done => s.err = 0 ∧ s.obuf.isSome = true ∧ CountRegs s ∧ WrittenFrom s 0
  | .error => (s.err = 1 ∨ s.err = 2) ∧ s.obuf = none

/-- The machine's invariant. -/
structure Invariant (s : State) : Prop where
  /-- The fields fit the sequencer state. -/
  fields : SeqFields s
  /-- The buffer is in canonical form. -/
  canonical : ∀ mem, s.obuf = some mem → mem.wf = true
  /-- A transaction under way has three distinct cursors (R54). -/
  distinct : s.busy = true → cursorsDistinct s.useTms s.useTdi s.useTdom = true

end Sys2Proof.Machine
end

