-- ==== Sys2Proof/Certificates/Slice0/Obligations.lean ====
section
/-! DEFINITION. The statements for the provers. Each docstring names the rules of spec/ it formalises; "the model's
choice" marks a clause that rests on a log entry. -/

open Sys2Proof Sys2Proof.Machine

/-! ### Reset and the invariant -/

/-- R33, R150: after reset the sequencer is IDLE, STATUS shows IDLE and no error, and there is no buffer. (The values of
the registers the rules leave unspecified are the model's choice, log entry 2, and are not stated.) -/
def Obligations.ResetIsIdleWithoutBuffer : Prop :=
  State.reset.seq = .idle ∧ statusState State.reset.seq = 0 ∧ State.reset.err = 0 ∧ State.reset.obuf = none ∧
    result State.reset = none

/-- The invariant holds after reset. -/
def Obligations.InvariantHoldsAtReset : Prop := Invariant State.reset

/-- R23 to R25, R29, R108: every step keeps the invariant: STATUS and the buffer fit the sequencer state, the count
registers fit `cnt`, and exactly the cells written so far are written. -/
def Obligations.EveryStepKeepsTheInvariant : Prop :=
  ∀ s t, Invariant s → step s = .next t → Invariant t

/-- R44, R108, R160: on the encoder's turn no bounds fault, no overwrite and no other stop is reachable, and a
transaction under way comes closer to its end; outside a transaction the encoder only waits. -/
def Obligations.EncoderTurnAlwaysProgresses : Prop :=
  ∀ s s', Invariant s → EncoderActs s s' →
    ∃ t, step s = .next t ∧ (s.busy = true → stepsLeft t < stepsLeft s) ∧ (s.busy = false → t = s')

/-- R44, R54, R130, R155, R156: a step stops only for something the caller does: a start while BUSY, a read where no
result or no cell is, shared cursors, or a stream changed during a transaction. -/
def Obligations.StopsAreTheCallersDoing : Prop :=
  ∀ s, Invariant s →
    (∀ f, step s = .fault f → f = .startWhileBusy ∨ f = .noResult ∨ f = .readOutOfRange) ∧
    (∀ f, step s = .refused f → f = .sharedCursors ∨ f = .streamTouched)

/-! ### Datapath -/

/-- R80: `HI` and `LO` take the two nibbles of a byte, cycles 0..3 and cycles 4..7 of the group. -/
def Obligations.ExtractorTakesTheTwoNibbles : Prop :=
  ∀ x : Byte, (hi x = x.extractLsb' 4 4 ∧ (hi x).zeroExtend 8 = x >>> 4) ∧
    (lo x = x.extractLsb' 0 4 ∧ (lo x).zeroExtend 8 = x &&& 0x0F#8) ∧
    ∀ j, j < 4 → (hi x).getLsbD (3 - j) = cycleBit [x] j ∧ (lo x).getLsbD (3 - j) = cycleBit [x] (4 + j)

/-- R81: the four placements put the selected nibble, whole and in its order, in one half, and zeros in the other. -/
def Obligations.ShifterPlacesEachNibbleWhole : Prop :=
  ∀ x : Byte, (hi (hiToHigh x) = hi x ∧ lo (hiToHigh x) = 0) ∧ (hi (hiToLow x) = 0 ∧ lo (hiToLow x) = hi x) ∧
    (hi (loToHigh x) = lo x ∧ lo (loToHigh x) = 0) ∧ (hi (loToLow x) = 0 ∧ lo (loToLow x) = lo x)

/-- R64, R82, R83: VMASK of 1..4 is the formula's value, its `k` most significant bits 1 and the rest 0; no other `k`
has a mask. -/
def Obligations.MaskHasTheLeadingOnes : Prop :=
  (∀ k, 1 ≤ k → k ≤ 4 → ∃ v, vmask k = some v ∧ v.toNat = 0xF - (2 ^ (4 - k) - 1) ∧
    ∀ j, j < 4 → v.getLsbD (3 - j) = decide (j < k)) ∧
  ∀ k, ¬(1 ≤ k ∧ k ≤ 4) → vmask k = none

/-- R84: PACK puts `h` in bits 7..4 and `l` in bits 3..0, `|` is `+`, byte A is PACK of the TMS and TDI nibbles and
byte B is PACK of the TDO-mask nibble and `V`. -/
def Obligations.PackedBytesHoldBothNibbles : Prop :=
  (∀ h l : Nibble, hi (pack h l) = h ∧ lo (pack h l) = l ∧ (pack h l).toNat = 16 * h.toNat + l.toNat) ∧
  (∀ m d : Byte, byteOfA .high m d = pack (hi m) (hi d) ∧ byteOfA .low m d = pack (lo m) (lo d)) ∧
  (∀ (o : Byte) (v : Nibble), byteOfB .high o v = pack (hi o) v ∧ byteOfB .low o v = pack (lo o) v)

/-! ### Pair operations -/

/-- R90: FULL_LO writes the low nibbles of the latches and `V = 0xF` at `T + 4i`, and nothing else. -/
def Obligations.FullLoWritesTheLowNibbles : Prop :=
  WritesPair .fullLo (fun s => s.T + 4 * s.i)
    (fun s => ((s.m &&& 0x0F#8) <<< 4) ||| (s.d &&& 0x0F#8)) (fun s => ((s.o &&& 0x0F#8) <<< 4) ||| 0xF#8)

/-- R91: FULL_HI writes the high nibbles of the latches and `V = 0xF` at `T + 4i + 2`, and nothing else. -/
def Obligations.FullHiWritesTheHighNibbles : Prop :=
  WritesPair .fullHi (fun s => s.T + 4 * s.i + 2)
    (fun s => (s.m &&& 0xF0#8) ||| (s.d >>> 4)) (fun s => (s.o &&& 0xF0#8) ||| 0xF#8)

/-- R92: TAIL_FULL_HI writes the high nibbles of the latches and `V = 0xF` at `2 * (1 if r4 > 0 else 0)`, and nothing
else. -/
def Obligations.TailFullHiWritesTheHighNibbles : Prop :=
  WritesPair .tailFullHi (fun s => 2 * (if 0 < s.r4 then 1 else 0))
    (fun s => (s.m &&& 0xF0#8) ||| (s.d >>> 4)) (fun s => (s.o &&& 0xF0#8) ||| 0xF#8)

/-- R93: TAIL_PART_LO of each `k` writes the low nibbles of the latches, uncleared, and `V = VMASK(k)` at 0, and nothing
else. -/
def Obligations.TailPartLoWritesTheLowNibbles : Prop :=
  (WritesPair .tailPartLo1 (fun _ => 0)
    (fun s => ((s.m &&& 0x0F#8) <<< 4) ||| (s.d &&& 0x0F#8)) (fun s => ((s.o &&& 0x0F#8) <<< 4) ||| 0x8#8)) ∧
  (WritesPair .tailPartLo2 (fun _ => 0)
    (fun s => ((s.m &&& 0x0F#8) <<< 4) ||| (s.d &&& 0x0F#8)) (fun s => ((s.o &&& 0x0F#8) <<< 4) ||| 0xC#8)) ∧
  (WritesPair .tailPartLo3 (fun _ => 0)
    (fun s => ((s.m &&& 0x0F#8) <<< 4) ||| (s.d &&& 0x0F#8)) (fun s => ((s.o &&& 0x0F#8) <<< 4) ||| 0xE#8))

/-- R94: TAIL_PART_HI of each `k` writes the high nibbles of the latches, uncleared, and `V = VMASK(k)` at 0, and
nothing else. -/
def Obligations.TailPartHiWritesTheHighNibbles : Prop :=
  (WritesPair .tailPartHi1 (fun _ => 0)
    (fun s => (s.m &&& 0xF0#8) ||| (s.d >>> 4)) (fun s => (s.o &&& 0xF0#8) ||| 0x8#8)) ∧
  (WritesPair .tailPartHi2 (fun _ => 0)
    (fun s => (s.m &&& 0xF0#8) ||| (s.d >>> 4)) (fun s => (s.o &&& 0xF0#8) ||| 0xC#8)) ∧
  (WritesPair .tailPartHi3 (fun _ => 0)
    (fun s => (s.m &&& 0xF0#8) ||| (s.d >>> 4)) (fun s => (s.o &&& 0xF0#8) ||| 0xE#8))

/-- R44: a pair operation completes exactly where a buffer is, both of its cells are below `L`, and both are
unwritten. -/
def Obligations.PairOpsCompleteExactlyOnFreeCells : Prop :=
  ∀ i s base, pairBase s i = some base →
    ((∃ t, exec i s = .next t) ↔
      ∃ mem, s.obuf = some mem ∧ base + 1 < s.L ∧ mem.read base = none ∧ mem.read (base + 1) = none)

/-- R44: MemWrite faults without a buffer, out of bounds, and on a written cell; else it writes the one cell. -/
def Obligations.MemWriteFaultsOffFreeCells : Prop :=
  ∀ off v s, (s.obuf = none → memWrite off v s = .fault .noBuffer) ∧
    ∀ mem, s.obuf = some mem →
      (s.L ≤ off → memWrite off v s = .fault .writeOutOfBounds) ∧
      (off < s.L → mem.read off ≠ none → memWrite off v s = .fault .overwrite) ∧
      (off < s.L → mem.read off = none → ∃ mem', memWrite off v s = .next { s with obuf := some mem' } ∧
        mem'.read off = some v ∧ ∀ a, a ≠ off → mem'.read a = mem.read a)

/-! ### Streams and errors -/

/-- R41: StreamRead raises InputExhausted at the end of the sequence, InvalidArgument for an element outside 0..255, and
otherwise gives the element and moves that one cursor on by one. -/
def Obligations.StreamReadTakesTheNextElement : Prop :=
  ∀ g s,
    ((s.streamOf g).unread = [] → streamRead g s = .raised .inputExhausted) ∧
    ∀ e rest, (s.streamOf g).unread = e :: rest →
      (¬(0 ≤ e ∧ e ≤ 255) → streamRead g s = .raised .invalidArgument) ∧
      (0 ≤ e ∧ e ≤ 255 → ∃ b t, streamRead g s = .ok b t ∧ (b.toNat : Int) = e ∧
        (t.streams.get (s.cursorOf g)).unread = rest ∧
        (t.streams.get (s.cursorOf g)).pos = (s.streamOf g).pos + 1 ∧
        (∀ c, c ≠ s.cursorOf g → t.streams.get c = s.streams.get c) ∧ t = { s with streams := t.streams })

/-- R131, R132, R134, R135, R136: when a read of a FULL or TAIL step raises an error, the first in the order TMS, TDI,
TDOM ends the transaction: ERROR, its code in STATUS.err, no buffer, and for InvalidArgument nothing but the code recorded.
Nothing else changes but the latches, the cursors (the sequences stay; where the cursors are is a free value, log entry 1)
and the model's own diagnosis and draw fields. -/
def Obligations.ErrorEndsTheTransaction : Prop :=
  ∀ s s' e, Invariant s → EncoderActs s s' → s.busy = true → groupError s = some e →
    ∃ t, step s = .next t ∧ t.seq = .error ∧ t.err = errCode e ∧ t.obuf = none ∧ result t = none ∧
      (e = .invalidArgument → t.errStream = none) ∧ s.streams.SameSequences t.streams ∧
      t = { s' with seq := .error, err := errCode e, obuf := none, errStream := t.errStream, m := t.m, d := t.d,
                    o := t.o, streams := t.streams, draws := t.draws }

/-- R131, R134: a negative count ends the transaction at its start, before any read: ERROR with code 1 and no buffer,
and no latch or count register is written. -/
def Obligations.NegativeCountIsAnError : Prop :=
  ∀ s count a b c, s.busy = false → cursorsDistinct a b c = true → count < 0 →
    ∃ t, exec (.encode count a b c) s = .next t ∧ startTransaction count a b c s = .next t ∧
      t.seq = .error ∧ t.err = 1 ∧ t.obuf = none ∧ result t = none ∧ s.streams.SameSequences t.streams ∧
      t = { s with seq := .error, err := 1, obuf := none, errStream := none, useTms := a, useTdi := b, useTdom := c,
                   streams := t.streams, draws := t.draws }

/-! ### The caller's side -/

/-- R155: a start while BUSY has no step, whether stepped or called. That this is a named fault, and that BUSY is checked
before shared cursors, so that the operands do not matter, is the model's choice (log entry 13). -/
def Obligations.StartWhileBusyHasNoStep : Prop :=
  ∀ s, s.busy = true →
    (∀ count a b c, exec (.encode count a b c) s = .fault .startWhileBusy) ∧
    (∀ cmd rest, s.schedule = .start cmd :: rest → step s = .fault .startWhileBusy)

/-- R54: a transaction whose cursors are not distinct, and a change of a stream during a transaction, are refused. The
model's choices: a shared cursor is refused before a negative count is looked at (log entry 13), and every change of a
stream while BUSY is refused, also one of elements already read, which R154 does not forbid (log entry 14). -/
def Obligations.SharedOrChangedStreamsAreRefused : Prop :=
  (∀ s count a b c, s.busy = false → cursorsDistinct a b c = false →
    exec (.encode count a b c) s = .refused .sharedCursors ∧
    startTransaction count a b c s = .refused .sharedCursors) ∧
  (∀ s c st rest, s.busy = true → s.schedule = .setStream c st :: rest → step s = .refused .streamTouched)

/-- R150, R151: reset puts the block in IDLE without error or buffer and abandons a transaction; the caller's sequences
stay, and outside a transaction its cursors too. -/
def Obligations.ResetAbandonsTheTransaction : Prop :=
  ∀ s rest, s.schedule = .reset :: rest →
    ∃ t, step s = .next t ∧ t.seq = .idle ∧ t.err = 0 ∧ t.obuf = none ∧ result t = none ∧ t.schedule = rest ∧
      s.streams.SameSequences t.streams ∧ (s.busy = false → t.streams = s.streams)

/-- R31, R32, R156: the caller reads the result only at DONE, and then every cell below `L` has a byte, the one the
delivered buffer has there. The model's own: the fault for an offset not below `L`, where no cell is (log entry 16), and
that a read is a turn that changes nothing but the schedule (log entry 15). -/
def Obligations.ResultIsReadWholeAndOnlyAtDone : Prop :=
  ∀ s off rest, Invariant s → s.schedule = .readCell off :: rest →
    (s.seq ≠ .done → step s = .fault .noResult ∧ result s = none) ∧
    (s.seq = .done → s.L ≤ off → step s = .fault .readOutOfRange) ∧
    (s.seq = .done → off < s.L → step s = .next { s with schedule := rest } ∧
      ∃ buf b, result s = some buf ∧ buf.length = s.L ∧ buf[off]? = some b ∧ callerRead s off = .ok b)

/-- R32: outside a transaction the status and the result are held until the next start, call or reset. -/
def Obligations.ResultIsHeldUntilTheNextStart : Prop :=
  ∀ s t, s.busy = false → step s = .next t →
    (∀ cmd, s.schedule.head? ≠ some (.start cmd)) → (∀ cmd, s.schedule.head? ≠ some (.call cmd)) →
    s.schedule.head? ≠ some .reset →
    result t = result s ∧ t.seq = s.seq ∧ t.err = s.err

/-! ### Starting, and one step at a time -/

/-- R101, R103, R109 (its first line): an accepted start latches the count, computes the count registers, gives the
transaction a buffer of `L = 4q + T` unwritten cells, and changes nothing else. That the latches, and `i` where there is
no full group, keep what they held is the model's own (log entry 10; the spec gives any value, P2). -/
def Obligations.AcceptedStartLatchesTheCount : Prop :=
  ∀ (s : State) (cmd : Command) (n : Nat) rest, s.schedule = .start cmd :: rest → s.busy = false →
    cursorsDistinct cmd.tms cmd.tdi cmd.tdom = true → cmd.count = (n : Int) →
    ∃ t, step s = .next t ∧ t.L = 4 * t.q + t.T ∧ (∀ a, t.cell a = none) ∧
      t = { s with
            schedule := rest, useTms := cmd.tms, useTdi := cmd.tdi, useTdom := cmd.tdom, err := 0, errStream := none
            cnt := n, q := n / 8, r := n % 8, r4 := n % 4
            T := 2 * ((if 4 ≤ n % 8 then 1 else 0) + (if 0 < n % 4 then 1 else 0))
            L := 2 * ((n + 3) / 4)
            i := if 0 < n / 8 then n / 8 - 1 else s.i
            obuf := some []
            seq := if 0 < n / 8 then .full else if n % 8 ≠ 0 then .tail else .done }

/-- R67, R109: a step runs the operations the map selects: a call runs ENCODE; a FULL step, after its reads, FULL_LO,
then FULL_HI, then the way on; a TAIL step, after its reads, the tail's operations, then the end. -/
def Obligations.StepRunsTheSelectedOperations : Prop :=
  (∀ s cmd rest, s.schedule = .call cmd :: rest →
    step s = exec (.encode cmd.count cmd.tms cmd.tdi cmd.tdom) { s with schedule := rest }) ∧
  (∀ s s' s1, EncoderActs s s' → s.seq = .full → readGroup s' = .ok s1 →
    step s = andThen (exec .fullLo s1) fun s2 => andThen (exec .fullHi s2) fun s3 => .next (advance s3)) ∧
  (∀ s s' s1 ops, EncoderActs s s' → s.seq = .tail → readGroup s' = .ok s1 → tailOps s.r s.r4 = some ops →
    step s = andThen (runOps ops s1) fun s2 => .next (finish s2))

/-- R104, R105, R109: a FULL step reads one element of each stream, writes the group's four bytes at `T + 4i .. T + 4i +
3` (the later four cycles first), and goes on to group `i - 1`, the tail or the end; it changes nothing else. -/
def Obligations.FullStepWritesItsGroup : Prop :=
  ∀ s s', Invariant s → EncoderActs s s' → s.seq = .full → groupError s = none →
    ∃ t, step s = .next t ∧
      t.m = headByte (s.streamOf .tms) ∧ t.d = headByte (s.streamOf .tdi) ∧ t.o = headByte (s.streamOf .tdom) ∧
      t.streams = s.streams.moved 1 ∧
      t.cell (s.T + 4 * s.i) = some (((t.m &&& 0x0F#8) <<< 4) ||| (t.d &&& 0x0F#8)) ∧
      t.cell (s.T + 4 * s.i + 1) = some (((t.o &&& 0x0F#8) <<< 4) ||| 0xF#8) ∧
      t.cell (s.T + 4 * s.i + 2) = some ((t.m &&& 0xF0#8) ||| (t.d >>> 4)) ∧
      t.cell (s.T + 4 * s.i + 3) = some ((t.o &&& 0xF0#8) ||| 0xF#8) ∧
      (∀ a, a < s.T + 4 * s.i ∨ s.T + 4 * s.i + 4 ≤ a → t.cell a = s.cell a) ∧
      (0 < s.i → t.seq = .full ∧ t.i = s.i - 1) ∧
      (s.i = 0 → t.i = 0 ∧ t.seq = if s.r ≠ 0 then .tail else .done) ∧
      t = { s' with m := t.m, d := t.d, o := t.o, streams := t.streams, obuf := t.obuf, i := t.i, seq := t.seq }

/-- R106, R107, R109: a TAIL step reads one element of each stream, writes the tail's pairs at the offsets below `T`, by
`r`, and ends in DONE; it changes nothing else. -/
def Obligations.TailStepWritesTheTail : Prop :=
  ∀ s s', Invariant s → EncoderActs s s' → s.seq = .tail → groupError s = none →
    ∃ t, step s = .next t ∧ t.seq = .done ∧
      t.m = headByte (s.streamOf .tms) ∧ t.d = headByte (s.streamOf .tdi) ∧ t.o = headByte (s.streamOf .tdom) ∧
      t.streams = s.streams.moved 1 ∧
      (s.r < 4 → s.T = 2 ∧ ∃ v, vmask s.r = some v ∧
        t.cell 0 = some ((t.m &&& 0xF0#8) ||| (t.d >>> 4)) ∧ t.cell 1 = some ((t.o &&& 0xF0#8) ||| v.zeroExtend 8)) ∧
      (s.r = 4 → s.T = 2 ∧
        t.cell 0 = some ((t.m &&& 0xF0#8) ||| (t.d >>> 4)) ∧ t.cell 1 = some ((t.o &&& 0xF0#8) ||| 0xF#8)) ∧
      (4 < s.r → s.T = 4 ∧ ∃ v, vmask (s.r - 4) = some v ∧
        t.cell 0 = some (((t.m &&& 0x0F#8) <<< 4) ||| (t.d &&& 0x0F#8)) ∧
        t.cell 1 = some (((t.o &&& 0x0F#8) <<< 4) ||| v.zeroExtend 8) ∧
        t.cell 2 = some ((t.m &&& 0xF0#8) ||| (t.d >>> 4)) ∧ t.cell 3 = some ((t.o &&& 0xF0#8) ||| 0xF#8)) ∧
      (∀ a, s.T ≤ a → t.cell a = s.cell a) ∧
      t = { s' with m := t.m, d := t.d, o := t.o, streams := t.streams, obuf := t.obuf, seq := .done }

/-- R102: tailOffset by the remainder, and that it is twice the number of pairs the tail has. -/
def Obligations.TailOffsetByRemainder : Prop :=
  ∀ n, tailOffset n = 2 * ((if 4 ≤ n % 8 then 1 else 0) + (if 0 < n % 4 then 1 else 0)) ∧
    (n % 8 = 0 → tailOffset n = 0) ∧ (1 ≤ n % 8 → n % 8 ≤ 4 → tailOffset n = 2) ∧
    (5 ≤ n % 8 → tailOffset n = 4) ∧ tailOffset n = 2 * tailPairCount n ∧
    (n % 8 ≠ 0 → ∃ ops, tailOps (n % 8) (n % 4) = some ops ∧ tailOffset n = 2 * ops.length)

/-- R109, R160: every transaction ends after as many encoder steps as groups are left, and not before but in ERROR. -/
def Obligations.EveryTransactionEnds : Prop :=
  ∀ s rest, Invariant s → s.busy = true → s.schedule = List.replicate (stepsLeft s) .encoder ++ rest →
    ∃ t, run (stepsLeft s) s = .next t ∧ (t.seq = .done ∨ t.seq = .error) ∧ t.schedule = rest ∧
      ∀ k, k < stepsLeft s → ∃ u, run k s = .next u ∧ (u.busy = true ∨ u.seq = .error)

/-! ### ENCODE -/

/-- R113: where the caller supplies what the contract asks, ENCODE ends in DONE and every bit of the delivered buffer is
the closed form's. -/
def Obligations.EncodeDeliversTheClosedForm : Prop :=
  ∀ s (n : Nat) a b c tms tdi tdom, Ready s n a b c tms tdi tdom →
    ∃ t buf, exec (.encode n a b c) s = .next t ∧ t.seq = .done ∧ t.err = 0 ∧ result t = some buf ∧
      ClosedForm n tms tdi tdom buf

/-- R111: a successful ENCODE takes exactly `ceil(count / 8)` elements from each stream, and changes nothing of the
schedule or the model's draws. -/
def Obligations.EncodeConsumesExactlyItsElements : Prop :=
  ∀ s t (n : Nat) a b c, exec (.encode n a b c) s = .next t → t.seq = .done →
    (∀ x, (t.streams.get x).pos = (s.streams.get x).pos + ceilDiv n 8) ∧
    t.streams = s.streams.moved (ceilDiv n 8) ∧ t.schedule = s.schedule ∧ t.draws = s.draws

/-- R25, R100, R111, R131, R136: what ENCODE of a count leaves in every register and what it leaves unchanged. After
success the count registers are those of the count, the streams are on by the elements read, and exactly the cells below
`L` are written. After an error nothing but what success may write has changed, and the cursors and draws (log entry 1),
and InvalidArgument records its code only. The model's own: that after success `i` is 0 (as before where there was no full
group) and the latches hold the last elements read (as before where none was read), log entry 10; the spec gives these
registers any value between transactions (P2) and `i` no meaning outside FULL (R27). The schedule and the draws are the
model's own fields (log entries 7 and 1), and the diagnosis field too (log entry 17). -/
def Obligations.EncodeChangesOnlyItsRegisters : Prop :=
  ∀ s t (n : Nat) a b c, exec (.encode n a b c) s = .next t →
    (t.seq = .done →
      (∀ x, (t.cell x).isSome = true ↔ x < outLen n) ∧
      t = { s with
            seq := .done, err := 0, errStream := none, useTms := a, useTdi := b, useTdom := c
            cnt := n, q := n / 8, r := n % 8, r4 := n % 4, T := tailOffset n, L := outLen n
            i := if 0 < n / 8 then 0 else s.i
            m := if n = 0 then s.m else headByte ((s.streams.get a).moved (ceilDiv n 8 - 1))
            d := if n = 0 then s.d else headByte ((s.streams.get b).moved (ceilDiv n 8 - 1))
            o := if n = 0 then s.o else headByte ((s.streams.get c).moved (ceilDiv n 8 - 1))
            streams := s.streams.moved (ceilDiv n 8), obuf := t.obuf }) ∧
    (t.seq = .error →
      (t.err = 1 → t.errStream = none) ∧ s.streams.SameSequences t.streams ∧
      t = { s with
            seq := .error, err := t.err, errStream := t.errStream, useTms := a, useTdi := b, useTdom := c
            cnt := n, q := n / 8, r := n % 8, r4 := n % 4, T := tailOffset n, L := outLen n
            i := t.i, m := t.m, d := t.d, o := t.o, streams := t.streams, obuf := none, draws := t.draws })

/-- R110: `ENCODE 0` reads nothing, goes from the start straight to DONE, and delivers an empty buffer. -/
def Obligations.EncodeZeroDeliversNothing : Prop :=
  ∀ s a b c, s.busy = false → cursorsDistinct a b c = true →
    ∃ t, exec (.encode 0 a b c) s = .next t ∧ startTransaction 0 a b c s = .next t ∧ t.seq = .done ∧ t.err = 0 ∧
      t.L = 0 ∧ t.T = 0 ∧ result t = some [] ∧ t.streams = s.streams

/-- R130, R132, R152: every ENCODE of a count on distinct cursors ends: in DONE exactly where each stream has
`ceil(count / 8)` byte elements left, else in ERROR without a buffer; and where every element fits a byte, the error is
InputExhausted (R131). -/
def Obligations.EncodeSucceedsExactlyOnFullStreams : Prop :=
  ∀ s (n : Nat) a b c, s.busy = false → cursorsDistinct a b c = true →
    ∃ t, exec (.encode n a b c) s = .next t ∧
      (t.seq = .done ↔ ∃ tms tdi tdom, Ready s n a b c tms tdi tdom) ∧
      (t.seq ≠ .done → t.seq = .error ∧ (t.err = 1 ∨ t.err = 2) ∧ t.obuf = none ∧
        ((∀ x, ∀ e ∈ (s.streams.get x).unread, 0 ≤ e ∧ e ≤ 255) → t.err = 2))

/-- R35, R109: the step-level sequencer and the atomic ENCODE answer the same, for every command and from every state:
one start step and `ceil(count / 8)` encoder steps. -/
def Obligations.SequencerAgreesWithAtomicEncode : Prop :=
  ∀ s cmd rest,
    s.schedule = .start cmd :: (List.replicate (ceilDiv cmd.count.toNat 8) .encoder ++ rest) →
    run (1 + ceilDiv cmd.count.toNat 8) s
      = exec (.encode cmd.count cmd.tms cmd.tdi cmd.tdom) { s with schedule := rest }

/-- R115: decoding the delivered buffer gives back the count, the bits of the three signals in cycle order, and the
operation that wrote each pair. -/
def Obligations.OutputDecodesToTheInput : Prop :=
  ∀ s (n : Nat) a b c tms tdi tdom, Ready s n a b c tms tdi tdom →
    ∃ t buf d, exec (.encode n a b c) s = .next t ∧ result t = some buf ∧ decodeBuffer buf = .ok d ∧ d.count = n ∧
      d.tms = (List.range n).map (cycleBit tms) ∧ d.tdi = (List.range n).map (cycleBit tdi) ∧
      d.tdom = (List.range n).map (cycleBit tdom) ∧
      d.ops.map some = (List.range (ceilDiv n 4)).map (opAt n)

/-- R64, R65, R116: in a delivered buffer pair 0 carries `count % 4` cycles if that is not 0, else four, and every other
pair four. -/
def Obligations.OnlyPairZeroIsPartial : Prop :=
  ∀ s (n : Nat) a b c tms tdi tdom, Ready s n a b c tms tdi tdom →
    ∃ t buf, exec (.encode n a b c) s = .next t ∧ result t = some buf ∧
      ∀ p, p < ceilDiv n 4 →
        vmask (if p = 0 ∧ n % 4 ≠ 0 then n % 4 else 4) = some (lowNibble (buf.getD (2 * p + 1) 0))

/-- R114: two transactions whose streams agree on every cycle within `count` deliver buffers of one length whose
valid-bits nibbles are the same and that agree on every bit marked valid. -/
def Obligations.BitsBeyondCountChangeNoValidBit : Prop :=
  ∀ s s' (n : Nat) a b c a' b' c' tms tdi tdom tms' tdi' tdom',
    Ready s n a b c tms tdi tdom → Ready s' n a' b' c' tms' tdi' tdom' →
    (∀ x, x < n → cycleBit tms x = cycleBit tms' x ∧ cycleBit tdi x = cycleBit tdi' x ∧
      cycleBit tdom x = cycleBit tdom' x) →
    ∃ t t' buf buf', exec (.encode n a b c) s = .next t ∧ exec (.encode n a' b' c') s' = .next t' ∧
      result t = some buf ∧ result t' = some buf' ∧ buf.length = buf'.length ∧
      ∀ p j, 2 * p < buf.length → j < 4 →
        bufBit buf (2 * p + 1) (3 - j) = bufBit buf' (2 * p + 1) (3 - j) ∧
        (bufBit buf (2 * p + 1) (3 - j) = true →
          bufBit buf (2 * p) (7 - j) = bufBit buf' (2 * p) (7 - j) ∧
          bufBit buf (2 * p) (3 - j) = bufBit buf' (2 * p) (3 - j) ∧
          bufBit buf (2 * p + 1) (7 - j) = bufBit buf' (2 * p + 1) (7 - j))

/-- R20, R117: the result of ENCODE is a function of `count` and the elements it reads: two calls on the same bytes,
from any two states and on any cursors, deliver the same buffer. -/
def Obligations.SameInputGivesSameOutput : Prop :=
  ∀ s s' (n : Nat) a b c a' b' c' tms tdi tdom,
    Ready s n a b c tms tdi tdom → Ready s' n a' b' c' tms tdi tdom →
    ∃ t t' buf, exec (.encode n a b c) s = .next t ∧ exec (.encode n a' b' c') s' = .next t' ∧
      result t = some buf ∧ result t' = some buf

/-- R20, R34: no datapath register, and nothing an earlier transaction left, can be told from outside: two states with
the same streams and schedule, neither BUSY, look the same to the caller after every number of steps from the next
start on; and the cursors are the same throughout, also during a transaction, where the caller does not see them. (The
draws are the model's own; they are taken equal so that both runs meet the same free values.) -/
def Obligations.EarlierStateCannotBeSeen : Prop :=
  ∀ s s' cmd rest k, s.busy = false → s'.busy = false → s'.streams = s.streams → s'.draws = s.draws →
    s.schedule = .start cmd :: rest → s'.schedule = .start cmd :: rest →
    SameToCaller (run (k + 1) s) (run (k + 1) s') ∧
      ∀ t t', run (k + 1) s = .next t → run (k + 1) s' = .next t' → t.streams = t'.streams

/-- R43, R118: a second ENCODE starts at the cursors the first left, and delivers its own buffer, made of the elements
from there on. -/
def Obligations.SecondEncodeStartsWhereTheFirstEnded : Prop :=
  ∀ s t1 (n1 n2 : Nat) a b c tms tdi tdom, exec (.encode n1 a b c) s = .next t1 → t1.seq = .done →
    Ready { s with streams := s.streams.moved (ceilDiv n1 8) } n2 a b c tms tdi tdom →
    ∃ t2 buf, exec (.encode n2 a b c) t1 = .next t2 ∧ t2.seq = .done ∧ result t2 = some buf ∧
      ClosedForm n2 tms tdi tdom buf ∧ t2.streams = s.streams.moved (ceilDiv n1 8 + ceilDiv n2 8)

/-! ### The operation map and the output format -/

/-- R62, R65, R67: whatever nibbles a pair operation is given, its two bytes, read at any place the map gives the
operation, decode to it, and the bytes after them are left; every pair operation has such a place; and an ENCODE's
command decodes to it. -/
def Obligations.DecodeUndoesEncodeAtEveryPlace : Prop :=
  (∀ n p i m d o rest, opAt n p = some i →
    ∃ bs, encode i m d o = some bs ∧ bs.length = 2 ∧ decodeAt n p (bs ++ rest) = .ok (i, rest)) ∧
  (∀ i, encodeCommand i = none → ∃ n p, opAt n p = some i) ∧
  (∀ i cmd, encodeCommand i = some cmd → decodeCommand cmd = i)

/-- R46, R66, R67: `ENCODE n` has an operation at every pair below `ceil(n / 4)` and at no other, and each operation
stands where the map says. -/
def Obligations.OperationMapCoversTheOutput : Prop :=
  ∀ n p, ((opAt n p).isSome = true ↔ p < ceilDiv n 4) ∧
    (opAt n p = some .fullLo ↔ ∃ i, i < n / 8 ∧ 2 * p = tailOffset n + 4 * i) ∧
    (opAt n p = some .fullHi ↔ ∃ i, i < n / 8 ∧ 2 * p = tailOffset n + 4 * i + 2) ∧
    (opAt n p = some .tailFullHi ↔ 4 ≤ n % 8 ∧ 2 * p = 2 * (if 0 < n % 4 then 1 else 0)) ∧
    (opAt n p = some .tailPartLo1 ↔ n % 8 = 5 ∧ p = 0) ∧ (opAt n p = some .tailPartLo2 ↔ n % 8 = 6 ∧ p = 0) ∧
    (opAt n p = some .tailPartLo3 ↔ n % 8 = 7 ∧ p = 0) ∧ (opAt n p = some .tailPartHi1 ↔ n % 8 = 1 ∧ p = 0) ∧
    (opAt n p = some .tailPartHi2 ↔ n % 8 = 2 ∧ p = 0) ∧ (opAt n p = some .tailPartHi3 ↔ n % 8 = 3 ∧ p = 0)

/-- R65, R66: bytes the block did not produce are rejected by name, in a buffer of any length: an odd number of bytes; a
pair whose valid-bits nibble is none of 0xF, 0xE, 0xC and 0x8; and, where every pair has one of these, a nibble other
than 0xF in a pair other than pair 0. A buffer with none of the three is decoded. -/
def Obligations.ForeignBuffersAreRejected : Prop :=
  ∀ buf : List Byte,
    (buf.length % 2 = 1 → decodeBuffer buf = .error .oddLength) ∧
    (buf.length % 2 = 0 → (∃ p, 2 * p < buf.length ∧ ¬IsValidBits (validAt buf p)) →
      decodeBuffer buf = .error .neverProduced) ∧
    (buf.length % 2 = 0 → (∀ p, 2 * p < buf.length → IsValidBits (validAt buf p)) →
      (∃ p, 0 < p ∧ 2 * p < buf.length ∧ validAt buf p ≠ 0xF) → decodeBuffer buf = .error .partialNotFirst) ∧
    (buf.length % 2 = 0 → (∀ p, 2 * p < buf.length → IsValidBits (validAt buf p)) →
      (∀ p, 0 < p → 2 * p < buf.length → validAt buf p = 0xF) → ∃ d, decodeBuffer buf = .ok d)

/-- The pairs of 95_test_vectors.md, written out, one for each row of the opcode table, decode to the operations that
wrote them. -/
def Obligations.WrittenOutPairsDecode : Prop :=
  decodeAt 8 0 [0x20, 0xFF] = .ok (.fullLo, []) ∧ decodeAt 8 1 [0xBF, 0xFF] = .ok (.fullHi, []) ∧
  decodeAt 4 0 [0x0F, 0xFF] = .ok (.tailFullHi, []) ∧
  decodeAt 5 0 [0x56, 0xF8, 0xA9, 0xFF] = .ok (.tailPartLo1, [0xA9, 0xFF]) ∧
  decodeAt 6 0 [0x56, 0xFC] = .ok (.tailPartLo2, []) ∧ decodeAt 7 0 [0x56, 0xFE] = .ok (.tailPartLo3, []) ∧
  decodeAt 1 0 [0xA9, 0xF8] = .ok (.tailPartHi1, []) ∧ decodeAt 2 0 [0xA9, 0xFC] = .ok (.tailPartHi2, []) ∧
  decodeAt 3 0 [0x00, 0x0E] = .ok (.tailPartHi3, []) ∧ decodeAt 8 0 [0x20, 0xF8] = .error .wrongValidBits

/-- The model's choice (log entry 9): a table word made ready for the next step is run by it, and the buffer the step
delivers is that one pair. -/
def Obligations.FetchedPairIsDelivered : Prop :=
  ∀ (s : State) w i, w < 65536 → decodeTableWord 16 w = some i →
    ∃ t, step (s.withFetchWord 16 w) = .next t ∧ t.seq = .done ∧ result t = some [byteA w, byteB w] ∧
      t.schedule = s.schedule

/-! ### STATUS, and what the caller sees of a transaction -/

/-- R23, R28: STATUS.state is 0 in IDLE, 1 in FULL and in TAIL, 2 in DONE and 3 in ERROR, and it is what the caller sees;
a transaction is in progress exactly at 1. The caller can read STATUS in every state with the invariant; that this read is
a turn that changes nothing but the schedule is the model's choice (log entry 15). -/
def Obligations.StatusShowsTheSequencerState : Prop :=
  (∀ s, (observe s).status =
      (match s.seq with | .idle => 0#2 | .full => 1#2 | .tail => 1#2 | .done => 2#2 | .error => 3#2) ∧
    (s.busy = true ↔ (observe s).status = 1#2) ∧ (observe s).err = s.err) ∧
  ∀ s rest, Invariant s → s.schedule = .readStatus :: rest → step s = .next { s with schedule := rest }

/-- R51, R32: the caller never sees an intermediate buffer or a partial advance of the cursors. All it sees of a
transaction in progress is that it is in progress; outside one it sees its cursors. -/
def Obligations.TransactionIsAtomicToTheCaller : Prop :=
  ∀ s, Invariant s →
    (s.busy = true → observe s = ⟨1#2, 0#2, none, none⟩) ∧
    (s.busy = false →
      (observe s).cursors = some ((s.streams.get .c0).pos, (s.streams.get .c1).pos, (s.streams.get .c2).pos) ∧
      ((observe s).result.isSome = true ↔ s.seq = .done))

/-- R62, R64, R69: the two bytes a pair operation writes are those the encoder of the output format gives for the nibble
it takes of each latch, so that the encoder and the meanings have one format. -/
def Obligations.PairOpsWriteTheEncodedBytes : Prop :=
  ∀ i s base mem, pairBase s i = some base → s.obuf = some mem → base + 1 < s.L → mem.read base = none →
    mem.read (base + 1) = none →
    ∃ t m d o byA byB, exec i s = .next t ∧ nibbleOf s.m i = some m ∧ nibbleOf s.d i = some d ∧
      nibbleOf s.o i = some o ∧ encode i m d o = some [byA, byB] ∧ t.cell base = some byA ∧
      t.cell (base + 1) = some byB
end

