-- ==== Sys2Proof/Laws/Memory.lean ====
section
/-! SUPPORT. The output buffer's laws: read after write, and that a write keeps the canonical form. -/

namespace Sys2Proof.Machine

@[simp] theorem Memory.read_nil (a : Nat) : Memory.read [] a = none := rfl

/-- A read after a write to the same cell gives the byte written. -/
@[simp] theorem Memory.read_write_same (mem : Memory) (a : Nat) (v : Byte) : (mem.write a v).read a = some v := by
  induction mem with
  | nil => simp [Memory.write, Memory.read]
  | cons c rest ih =>
    obtain ⟨b, w⟩ := c
    simp only [Memory.write]
    split
    · simp [Memory.read]
    · split
      · simp [Memory.read]
      · rename_i _ hne
        simpa [Memory.read, hne] using ih

/-- A write leaves every other cell alone. -/
@[simp] theorem Memory.read_write_other (mem : Memory) {a a' : Nat} (v : Byte) (h : a' ≠ a) :
    (mem.write a v).read a' = mem.read a' := by
  induction mem with
  | nil => simp [Memory.write, Memory.read, h]
  | cons c rest ih =>
    obtain ⟨b, w⟩ := c
    simp only [Memory.write]
    split
    · simp [Memory.read, h]
    · split
      · rename_i _ heq
        subst heq
        simp [Memory.read, h]
      · simp only [Memory.read]
        rw [ih]

theorem Memory.wf_cons_iff (c : Host.Cell) (rest : Memory) :
    Memory.wf (c :: rest) = true ↔ (∀ c' ∈ rest.head?, c.1 < c'.1) ∧ Memory.wf rest = true := by
  cases rest with
  | nil => simp [Memory.wf]
  | cons c' rest => simp [Memory.wf]

/-- The first cell after a write is the written one or the first one of before. -/
theorem Memory.head_write (mem : Memory) (a : Nat) (v : Byte) (lo : Nat) (hlo : lo < a)
    (h : ∀ c' ∈ mem.head?, lo < c'.1) : ∀ c' ∈ (mem.write a v).head?, lo < c'.1 := by
  cases mem with
  | nil => simpa [Memory.write] using hlo
  | cons c rest =>
    obtain ⟨b, w⟩ := c
    simp only [Memory.write]
    split
    · simpa using hlo
    · split
      · simpa using hlo
      · simpa using h

/-- A write keeps the canonical form. -/
theorem Memory.wf_write (mem : Memory) (a : Nat) (v : Byte) (h : mem.wf = true) : (mem.write a v).wf = true := by
  induction mem with
  | nil => simp [Memory.write, Memory.wf]
  | cons c rest ih =>
    obtain ⟨b, w⟩ := c
    have hc := (Memory.wf_cons_iff _ _).1 h
    simp only [Memory.write]
    split
    · rename_i hlt
      exact (Memory.wf_cons_iff _ _).2 ⟨by simpa using hlt, h⟩
    · split
      · rename_i _ heq
        subst heq
        exact (Memory.wf_cons_iff _ _).2 ⟨hc.1, hc.2⟩
      · rename_i hnlt hne
        refine (Memory.wf_cons_iff _ _).2 ⟨Memory.head_write rest a v b ?_ hc.1, ih hc.2⟩
        omega

/-- The reset state has no buffer, so nothing of it is out of canonical form. -/
theorem Memory.wf_nil : Memory.wf [] = true := rfl

end Sys2Proof.Machine
end

