-- ==== Sys2Proof/Laws/State.lean ====
section
/-! SUPPORT. What each field is after each update of the state, and what the streams' accessors give. -/

namespace Sys2Proof.Machine

/-! ### s.setBuf mem -/

@[simp] theorem setBuf_seq (s : State) (mem : Memory) : (s.setBuf mem).seq = s.seq := rfl
@[simp] theorem setBuf_err (s : State) (mem : Memory) : (s.setBuf mem).err = s.err := rfl
@[simp] theorem setBuf_errStream (s : State) (mem : Memory) : (s.setBuf mem).errStream = s.errStream := rfl
@[simp] theorem setBuf_cnt (s : State) (mem : Memory) : (s.setBuf mem).cnt = s.cnt := rfl
@[simp] theorem setBuf_q (s : State) (mem : Memory) : (s.setBuf mem).q = s.q := rfl
@[simp] theorem setBuf_r (s : State) (mem : Memory) : (s.setBuf mem).r = s.r := rfl
@[simp] theorem setBuf_r4 (s : State) (mem : Memory) : (s.setBuf mem).r4 = s.r4 := rfl
@[simp] theorem setBuf_T (s : State) (mem : Memory) : (s.setBuf mem).T = s.T := rfl
@[simp] theorem setBuf_L (s : State) (mem : Memory) : (s.setBuf mem).L = s.L := rfl
@[simp] theorem setBuf_i (s : State) (mem : Memory) : (s.setBuf mem).i = s.i := rfl
@[simp] theorem setBuf_m (s : State) (mem : Memory) : (s.setBuf mem).m = s.m := rfl
@[simp] theorem setBuf_d (s : State) (mem : Memory) : (s.setBuf mem).d = s.d := rfl
@[simp] theorem setBuf_o (s : State) (mem : Memory) : (s.setBuf mem).o = s.o := rfl
@[simp] theorem setBuf_obuf (s : State) (mem : Memory) : (s.setBuf mem).obuf = some mem := rfl
@[simp] theorem setBuf_useTms (s : State) (mem : Memory) : (s.setBuf mem).useTms = s.useTms := rfl
@[simp] theorem setBuf_useTdi (s : State) (mem : Memory) : (s.setBuf mem).useTdi = s.useTdi := rfl
@[simp] theorem setBuf_useTdom (s : State) (mem : Memory) : (s.setBuf mem).useTdom = s.useTdom := rfl
@[simp] theorem setBuf_streams (s : State) (mem : Memory) : (s.setBuf mem).streams = s.streams := rfl
@[simp] theorem setBuf_schedule (s : State) (mem : Memory) : (s.setBuf mem).schedule = s.schedule := rfl
@[simp] theorem setBuf_draws (s : State) (mem : Memory) : (s.setBuf mem).draws = s.draws := rfl

/-! ### s.setStreamOf g st -/

@[simp] theorem setStreamOf_seq (s : State) (g : Signal) (st : Stream) : (s.setStreamOf g st).seq = s.seq := rfl
@[simp] theorem setStreamOf_err (s : State) (g : Signal) (st : Stream) : (s.setStreamOf g st).err = s.err := rfl
@[simp] theorem setStreamOf_errStream (s : State) (g : Signal) (st : Stream) : (s.setStreamOf g st).errStream = s.errStream := rfl
@[simp] theorem setStreamOf_cnt (s : State) (g : Signal) (st : Stream) : (s.setStreamOf g st).cnt = s.cnt := rfl
@[simp] theorem setStreamOf_q (s : State) (g : Signal) (st : Stream) : (s.setStreamOf g st).q = s.q := rfl
@[simp] theorem setStreamOf_r (s : State) (g : Signal) (st : Stream) : (s.setStreamOf g st).r = s.r := rfl
@[simp] theorem setStreamOf_r4 (s : State) (g : Signal) (st : Stream) : (s.setStreamOf g st).r4 = s.r4 := rfl
@[simp] theorem setStreamOf_T (s : State) (g : Signal) (st : Stream) : (s.setStreamOf g st).T = s.T := rfl
@[simp] theorem setStreamOf_L (s : State) (g : Signal) (st : Stream) : (s.setStreamOf g st).L = s.L := rfl
@[simp] theorem setStreamOf_i (s : State) (g : Signal) (st : Stream) : (s.setStreamOf g st).i = s.i := rfl
@[simp] theorem setStreamOf_m (s : State) (g : Signal) (st : Stream) : (s.setStreamOf g st).m = s.m := rfl
@[simp] theorem setStreamOf_d (s : State) (g : Signal) (st : Stream) : (s.setStreamOf g st).d = s.d := rfl
@[simp] theorem setStreamOf_o (s : State) (g : Signal) (st : Stream) : (s.setStreamOf g st).o = s.o := rfl
@[simp] theorem setStreamOf_obuf (s : State) (g : Signal) (st : Stream) : (s.setStreamOf g st).obuf = s.obuf := rfl
@[simp] theorem setStreamOf_useTms (s : State) (g : Signal) (st : Stream) : (s.setStreamOf g st).useTms = s.useTms := rfl
@[simp] theorem setStreamOf_useTdi (s : State) (g : Signal) (st : Stream) : (s.setStreamOf g st).useTdi = s.useTdi := rfl
@[simp] theorem setStreamOf_useTdom (s : State) (g : Signal) (st : Stream) : (s.setStreamOf g st).useTdom = s.useTdom := rfl
@[simp] theorem setStreamOf_streams (s : State) (g : Signal) (st : Stream) : (s.setStreamOf g st).streams = s.streams.set (s.cursorOf g) st := rfl
@[simp] theorem setStreamOf_schedule (s : State) (g : Signal) (st : Stream) : (s.setStreamOf g st).schedule = s.schedule := rfl
@[simp] theorem setStreamOf_draws (s : State) (g : Signal) (st : Stream) : (s.setStreamOf g st).draws = s.draws := rfl

/-! ### s.setLatch .tms b -/

@[simp] theorem setLatch_tms_seq (s : State) (b : Byte) : (s.setLatch .tms b).seq = s.seq := rfl
@[simp] theorem setLatch_tms_err (s : State) (b : Byte) : (s.setLatch .tms b).err = s.err := rfl
@[simp] theorem setLatch_tms_errStream (s : State) (b : Byte) : (s.setLatch .tms b).errStream = s.errStream := rfl
@[simp] theorem setLatch_tms_cnt (s : State) (b : Byte) : (s.setLatch .tms b).cnt = s.cnt := rfl
@[simp] theorem setLatch_tms_q (s : State) (b : Byte) : (s.setLatch .tms b).q = s.q := rfl
@[simp] theorem setLatch_tms_r (s : State) (b : Byte) : (s.setLatch .tms b).r = s.r := rfl
@[simp] theorem setLatch_tms_r4 (s : State) (b : Byte) : (s.setLatch .tms b).r4 = s.r4 := rfl
@[simp] theorem setLatch_tms_T (s : State) (b : Byte) : (s.setLatch .tms b).T = s.T := rfl
@[simp] theorem setLatch_tms_L (s : State) (b : Byte) : (s.setLatch .tms b).L = s.L := rfl
@[simp] theorem setLatch_tms_i (s : State) (b : Byte) : (s.setLatch .tms b).i = s.i := rfl
@[simp] theorem setLatch_tms_m (s : State) (b : Byte) : (s.setLatch .tms b).m = b := rfl
@[simp] theorem setLatch_tms_d (s : State) (b : Byte) : (s.setLatch .tms b).d = s.d := rfl
@[simp] theorem setLatch_tms_o (s : State) (b : Byte) : (s.setLatch .tms b).o = s.o := rfl
@[simp] theorem setLatch_tms_obuf (s : State) (b : Byte) : (s.setLatch .tms b).obuf = s.obuf := rfl
@[simp] theorem setLatch_tms_useTms (s : State) (b : Byte) : (s.setLatch .tms b).useTms = s.useTms := rfl
@[simp] theorem setLatch_tms_useTdi (s : State) (b : Byte) : (s.setLatch .tms b).useTdi = s.useTdi := rfl
@[simp] theorem setLatch_tms_useTdom (s : State) (b : Byte) : (s.setLatch .tms b).useTdom = s.useTdom := rfl
@[simp] theorem setLatch_tms_streams (s : State) (b : Byte) : (s.setLatch .tms b).streams = s.streams := rfl
@[simp] theorem setLatch_tms_schedule (s : State) (b : Byte) : (s.setLatch .tms b).schedule = s.schedule := rfl
@[simp] theorem setLatch_tms_draws (s : State) (b : Byte) : (s.setLatch .tms b).draws = s.draws := rfl

/-! ### s.setLatch .tdi b -/

@[simp] theorem setLatch_tdi_seq (s : State) (b : Byte) : (s.setLatch .tdi b).seq = s.seq := rfl
@[simp] theorem setLatch_tdi_err (s : State) (b : Byte) : (s.setLatch .tdi b).err = s.err := rfl
@[simp] theorem setLatch_tdi_errStream (s : State) (b : Byte) : (s.setLatch .tdi b).errStream = s.errStream := rfl
@[simp] theorem setLatch_tdi_cnt (s : State) (b : Byte) : (s.setLatch .tdi b).cnt = s.cnt := rfl
@[simp] theorem setLatch_tdi_q (s : State) (b : Byte) : (s.setLatch .tdi b).q = s.q := rfl
@[simp] theorem setLatch_tdi_r (s : State) (b : Byte) : (s.setLatch .tdi b).r = s.r := rfl
@[simp] theorem setLatch_tdi_r4 (s : State) (b : Byte) : (s.setLatch .tdi b).r4 = s.r4 := rfl
@[simp] theorem setLatch_tdi_T (s : State) (b : Byte) : (s.setLatch .tdi b).T = s.T := rfl
@[simp] theorem setLatch_tdi_L (s : State) (b : Byte) : (s.setLatch .tdi b).L = s.L := rfl
@[simp] theorem setLatch_tdi_i (s : State) (b : Byte) : (s.setLatch .tdi b).i = s.i := rfl
@[simp] theorem setLatch_tdi_m (s : State) (b : Byte) : (s.setLatch .tdi b).m = s.m := rfl
@[simp] theorem setLatch_tdi_d (s : State) (b : Byte) : (s.setLatch .tdi b).d = b := rfl
@[simp] theorem setLatch_tdi_o (s : State) (b : Byte) : (s.setLatch .tdi b).o = s.o := rfl
@[simp] theorem setLatch_tdi_obuf (s : State) (b : Byte) : (s.setLatch .tdi b).obuf = s.obuf := rfl
@[simp] theorem setLatch_tdi_useTms (s : State) (b : Byte) : (s.setLatch .tdi b).useTms = s.useTms := rfl
@[simp] theorem setLatch_tdi_useTdi (s : State) (b : Byte) : (s.setLatch .tdi b).useTdi = s.useTdi := rfl
@[simp] theorem setLatch_tdi_useTdom (s : State) (b : Byte) : (s.setLatch .tdi b).useTdom = s.useTdom := rfl
@[simp] theorem setLatch_tdi_streams (s : State) (b : Byte) : (s.setLatch .tdi b).streams = s.streams := rfl
@[simp] theorem setLatch_tdi_schedule (s : State) (b : Byte) : (s.setLatch .tdi b).schedule = s.schedule := rfl
@[simp] theorem setLatch_tdi_draws (s : State) (b : Byte) : (s.setLatch .tdi b).draws = s.draws := rfl

/-! ### s.setLatch .tdom b -/

@[simp] theorem setLatch_tdom_seq (s : State) (b : Byte) : (s.setLatch .tdom b).seq = s.seq := rfl
@[simp] theorem setLatch_tdom_err (s : State) (b : Byte) : (s.setLatch .tdom b).err = s.err := rfl
@[simp] theorem setLatch_tdom_errStream (s : State) (b : Byte) : (s.setLatch .tdom b).errStream = s.errStream := rfl
@[simp] theorem setLatch_tdom_cnt (s : State) (b : Byte) : (s.setLatch .tdom b).cnt = s.cnt := rfl
@[simp] theorem setLatch_tdom_q (s : State) (b : Byte) : (s.setLatch .tdom b).q = s.q := rfl
@[simp] theorem setLatch_tdom_r (s : State) (b : Byte) : (s.setLatch .tdom b).r = s.r := rfl
@[simp] theorem setLatch_tdom_r4 (s : State) (b : Byte) : (s.setLatch .tdom b).r4 = s.r4 := rfl
@[simp] theorem setLatch_tdom_T (s : State) (b : Byte) : (s.setLatch .tdom b).T = s.T := rfl
@[simp] theorem setLatch_tdom_L (s : State) (b : Byte) : (s.setLatch .tdom b).L = s.L := rfl
@[simp] theorem setLatch_tdom_i (s : State) (b : Byte) : (s.setLatch .tdom b).i = s.i := rfl
@[simp] theorem setLatch_tdom_m (s : State) (b : Byte) : (s.setLatch .tdom b).m = s.m := rfl
@[simp] theorem setLatch_tdom_d (s : State) (b : Byte) : (s.setLatch .tdom b).d = s.d := rfl
@[simp] theorem setLatch_tdom_o (s : State) (b : Byte) : (s.setLatch .tdom b).o = b := rfl
@[simp] theorem setLatch_tdom_obuf (s : State) (b : Byte) : (s.setLatch .tdom b).obuf = s.obuf := rfl
@[simp] theorem setLatch_tdom_useTms (s : State) (b : Byte) : (s.setLatch .tdom b).useTms = s.useTms := rfl
@[simp] theorem setLatch_tdom_useTdi (s : State) (b : Byte) : (s.setLatch .tdom b).useTdi = s.useTdi := rfl
@[simp] theorem setLatch_tdom_useTdom (s : State) (b : Byte) : (s.setLatch .tdom b).useTdom = s.useTdom := rfl
@[simp] theorem setLatch_tdom_streams (s : State) (b : Byte) : (s.setLatch .tdom b).streams = s.streams := rfl
@[simp] theorem setLatch_tdom_schedule (s : State) (b : Byte) : (s.setLatch .tdom b).schedule = s.schedule := rfl
@[simp] theorem setLatch_tdom_draws (s : State) (b : Byte) : (s.setLatch .tdom b).draws = s.draws := rfl

/-! ### s.scatterCursors -/

@[simp] theorem scatterCursors_seq (s : State) : (s.scatterCursors).seq = s.seq := rfl
@[simp] theorem scatterCursors_err (s : State) : (s.scatterCursors).err = s.err := rfl
@[simp] theorem scatterCursors_errStream (s : State) : (s.scatterCursors).errStream = s.errStream := rfl
@[simp] theorem scatterCursors_cnt (s : State) : (s.scatterCursors).cnt = s.cnt := rfl
@[simp] theorem scatterCursors_q (s : State) : (s.scatterCursors).q = s.q := rfl
@[simp] theorem scatterCursors_r (s : State) : (s.scatterCursors).r = s.r := rfl
@[simp] theorem scatterCursors_r4 (s : State) : (s.scatterCursors).r4 = s.r4 := rfl
@[simp] theorem scatterCursors_T (s : State) : (s.scatterCursors).T = s.T := rfl
@[simp] theorem scatterCursors_L (s : State) : (s.scatterCursors).L = s.L := rfl
@[simp] theorem scatterCursors_i (s : State) : (s.scatterCursors).i = s.i := rfl
@[simp] theorem scatterCursors_m (s : State) : (s.scatterCursors).m = s.m := rfl
@[simp] theorem scatterCursors_d (s : State) : (s.scatterCursors).d = s.d := rfl
@[simp] theorem scatterCursors_o (s : State) : (s.scatterCursors).o = s.o := rfl
@[simp] theorem scatterCursors_obuf (s : State) : (s.scatterCursors).obuf = s.obuf := rfl
@[simp] theorem scatterCursors_useTms (s : State) : (s.scatterCursors).useTms = s.useTms := rfl
@[simp] theorem scatterCursors_useTdi (s : State) : (s.scatterCursors).useTdi = s.useTdi := rfl
@[simp] theorem scatterCursors_useTdom (s : State) : (s.scatterCursors).useTdom = s.useTdom := rfl
@[simp] theorem scatterCursors_streams (s : State) : (s.scatterCursors).streams = ⟨s.streams.c0.scatter s.draws, s.streams.c1.scatter (s.draws + 1), s.streams.c2.scatter (s.draws + 2)⟩ := rfl
@[simp] theorem scatterCursors_schedule (s : State) : (s.scatterCursors).schedule = s.schedule := rfl
@[simp] theorem scatterCursors_draws (s : State) : (s.scatterCursors).draws = s.draws + 3 := rfl

/-! ### raise e g s -/

@[simp] theorem raise_seq (e : ErrKind) (g : Option Signal) (s : State) : (raise e g s).seq = .error := rfl
@[simp] theorem raise_err (e : ErrKind) (g : Option Signal) (s : State) : (raise e g s).err = errCode e := rfl
@[simp] theorem raise_errStream (e : ErrKind) (g : Option Signal) (s : State) : (raise e g s).errStream = recorded e g := rfl
@[simp] theorem recorded_invalidArgument (g : Option Signal) : recorded .invalidArgument g = none := rfl
@[simp] theorem recorded_inputExhausted (g : Option Signal) : recorded .inputExhausted g = g := rfl
@[simp] theorem raise_cnt (e : ErrKind) (g : Option Signal) (s : State) : (raise e g s).cnt = s.cnt := rfl
@[simp] theorem raise_q (e : ErrKind) (g : Option Signal) (s : State) : (raise e g s).q = s.q := rfl
@[simp] theorem raise_r (e : ErrKind) (g : Option Signal) (s : State) : (raise e g s).r = s.r := rfl
@[simp] theorem raise_r4 (e : ErrKind) (g : Option Signal) (s : State) : (raise e g s).r4 = s.r4 := rfl
@[simp] theorem raise_T (e : ErrKind) (g : Option Signal) (s : State) : (raise e g s).T = s.T := rfl
@[simp] theorem raise_L (e : ErrKind) (g : Option Signal) (s : State) : (raise e g s).L = s.L := rfl
@[simp] theorem raise_i (e : ErrKind) (g : Option Signal) (s : State) : (raise e g s).i = s.i := rfl
@[simp] theorem raise_m (e : ErrKind) (g : Option Signal) (s : State) : (raise e g s).m = s.m := rfl
@[simp] theorem raise_d (e : ErrKind) (g : Option Signal) (s : State) : (raise e g s).d = s.d := rfl
@[simp] theorem raise_o (e : ErrKind) (g : Option Signal) (s : State) : (raise e g s).o = s.o := rfl
@[simp] theorem raise_obuf (e : ErrKind) (g : Option Signal) (s : State) : (raise e g s).obuf = none := rfl
@[simp] theorem raise_useTms (e : ErrKind) (g : Option Signal) (s : State) : (raise e g s).useTms = s.useTms := rfl
@[simp] theorem raise_useTdi (e : ErrKind) (g : Option Signal) (s : State) : (raise e g s).useTdi = s.useTdi := rfl
@[simp] theorem raise_useTdom (e : ErrKind) (g : Option Signal) (s : State) : (raise e g s).useTdom = s.useTdom := rfl
@[simp] theorem raise_streams (e : ErrKind) (g : Option Signal) (s : State) : (raise e g s).streams = s.scatterCursors.streams := rfl
@[simp] theorem raise_schedule (e : ErrKind) (g : Option Signal) (s : State) : (raise e g s).schedule = s.schedule := rfl
@[simp] theorem raise_draws (e : ErrKind) (g : Option Signal) (s : State) : (raise e g s).draws = s.draws + 3 := rfl

/-! ### s.bind a b c -/

@[simp] theorem bind_seq (s : State) (a b c : Cursor) : (s.bind a b c).seq = s.seq := rfl
@[simp] theorem bind_err (s : State) (a b c : Cursor) : (s.bind a b c).err = 0 := rfl
@[simp] theorem bind_errStream (s : State) (a b c : Cursor) : (s.bind a b c).errStream = none := rfl
@[simp] theorem bind_cnt (s : State) (a b c : Cursor) : (s.bind a b c).cnt = s.cnt := rfl
@[simp] theorem bind_q (s : State) (a b c : Cursor) : (s.bind a b c).q = s.q := rfl
@[simp] theorem bind_r (s : State) (a b c : Cursor) : (s.bind a b c).r = s.r := rfl
@[simp] theorem bind_r4 (s : State) (a b c : Cursor) : (s.bind a b c).r4 = s.r4 := rfl
@[simp] theorem bind_T (s : State) (a b c : Cursor) : (s.bind a b c).T = s.T := rfl
@[simp] theorem bind_L (s : State) (a b c : Cursor) : (s.bind a b c).L = s.L := rfl
@[simp] theorem bind_i (s : State) (a b c : Cursor) : (s.bind a b c).i = s.i := rfl
@[simp] theorem bind_m (s : State) (a b c : Cursor) : (s.bind a b c).m = s.m := rfl
@[simp] theorem bind_d (s : State) (a b c : Cursor) : (s.bind a b c).d = s.d := rfl
@[simp] theorem bind_o (s : State) (a b c : Cursor) : (s.bind a b c).o = s.o := rfl
@[simp] theorem bind_obuf (s : State) (a b c : Cursor) : (s.bind a b c).obuf = s.obuf := rfl
@[simp] theorem bind_useTms (s : State) (a b c : Cursor) : (s.bind a b c).useTms = a := rfl
@[simp] theorem bind_useTdi (s : State) (a b c : Cursor) : (s.bind a b c).useTdi = b := rfl
@[simp] theorem bind_useTdom (s : State) (a b c : Cursor) : (s.bind a b c).useTdom = c := rfl
@[simp] theorem bind_streams (s : State) (a b c : Cursor) : (s.bind a b c).streams = s.streams := rfl
@[simp] theorem bind_schedule (s : State) (a b c : Cursor) : (s.bind a b c).schedule = s.schedule := rfl
@[simp] theorem bind_draws (s : State) (a b c : Cursor) : (s.bind a b c).draws = s.draws := rfl

/-! ### s.latchCount n -/

@[simp] theorem latchCount_seq (s : State) (n : Nat) : (s.latchCount n).seq = firstSeq n := rfl
@[simp] theorem latchCount_err (s : State) (n : Nat) : (s.latchCount n).err = s.err := rfl
@[simp] theorem latchCount_errStream (s : State) (n : Nat) : (s.latchCount n).errStream = s.errStream := rfl
@[simp] theorem latchCount_cnt (s : State) (n : Nat) : (s.latchCount n).cnt = n := rfl
@[simp] theorem latchCount_q (s : State) (n : Nat) : (s.latchCount n).q = n / 8 := rfl
@[simp] theorem latchCount_r (s : State) (n : Nat) : (s.latchCount n).r = n % 8 := rfl
@[simp] theorem latchCount_r4 (s : State) (n : Nat) : (s.latchCount n).r4 = n % 4 := rfl
@[simp] theorem latchCount_T (s : State) (n : Nat) : (s.latchCount n).T = tailOffset n := rfl
@[simp] theorem latchCount_L (s : State) (n : Nat) : (s.latchCount n).L = outLen n := rfl
@[simp] theorem latchCount_i (s : State) (n : Nat) : (s.latchCount n).i = if 0 < n / 8 then n / 8 - 1 else s.i := rfl
@[simp] theorem latchCount_m (s : State) (n : Nat) : (s.latchCount n).m = s.m := rfl
@[simp] theorem latchCount_d (s : State) (n : Nat) : (s.latchCount n).d = s.d := rfl
@[simp] theorem latchCount_o (s : State) (n : Nat) : (s.latchCount n).o = s.o := rfl
@[simp] theorem latchCount_obuf (s : State) (n : Nat) : (s.latchCount n).obuf = some [] := rfl
@[simp] theorem latchCount_useTms (s : State) (n : Nat) : (s.latchCount n).useTms = s.useTms := rfl
@[simp] theorem latchCount_useTdi (s : State) (n : Nat) : (s.latchCount n).useTdi = s.useTdi := rfl
@[simp] theorem latchCount_useTdom (s : State) (n : Nat) : (s.latchCount n).useTdom = s.useTdom := rfl
@[simp] theorem latchCount_streams (s : State) (n : Nat) : (s.latchCount n).streams = s.streams := rfl
@[simp] theorem latchCount_schedule (s : State) (n : Nat) : (s.latchCount n).schedule = s.schedule := rfl
@[simp] theorem latchCount_draws (s : State) (n : Nat) : (s.latchCount n).draws = s.draws := rfl

/-! ### finish s -/

@[simp] theorem finish_seq (s : State) : (finish s).seq = .done := rfl
@[simp] theorem finish_err (s : State) : (finish s).err = 0 := rfl
@[simp] theorem finish_errStream (s : State) : (finish s).errStream = s.errStream := rfl
@[simp] theorem finish_cnt (s : State) : (finish s).cnt = s.cnt := rfl
@[simp] theorem finish_q (s : State) : (finish s).q = s.q := rfl
@[simp] theorem finish_r (s : State) : (finish s).r = s.r := rfl
@[simp] theorem finish_r4 (s : State) : (finish s).r4 = s.r4 := rfl
@[simp] theorem finish_T (s : State) : (finish s).T = s.T := rfl
@[simp] theorem finish_L (s : State) : (finish s).L = s.L := rfl
@[simp] theorem finish_i (s : State) : (finish s).i = s.i := rfl
@[simp] theorem finish_m (s : State) : (finish s).m = s.m := rfl
@[simp] theorem finish_d (s : State) : (finish s).d = s.d := rfl
@[simp] theorem finish_o (s : State) : (finish s).o = s.o := rfl
@[simp] theorem finish_obuf (s : State) : (finish s).obuf = s.obuf := rfl
@[simp] theorem finish_useTms (s : State) : (finish s).useTms = s.useTms := rfl
@[simp] theorem finish_useTdi (s : State) : (finish s).useTdi = s.useTdi := rfl
@[simp] theorem finish_useTdom (s : State) : (finish s).useTdom = s.useTdom := rfl
@[simp] theorem finish_streams (s : State) : (finish s).streams = s.streams := rfl
@[simp] theorem finish_schedule (s : State) : (finish s).schedule = s.schedule := rfl
@[simp] theorem finish_draws (s : State) : (finish s).draws = s.draws := rfl

/-! ### s.afterReads -/

@[simp] theorem afterReads_seq (s : State) : s.afterReads.seq = s.seq := rfl
@[simp] theorem afterReads_err (s : State) : s.afterReads.err = s.err := rfl
@[simp] theorem afterReads_errStream (s : State) : s.afterReads.errStream = s.errStream := rfl
@[simp] theorem afterReads_cnt (s : State) : s.afterReads.cnt = s.cnt := rfl
@[simp] theorem afterReads_q (s : State) : s.afterReads.q = s.q := rfl
@[simp] theorem afterReads_r (s : State) : s.afterReads.r = s.r := rfl
@[simp] theorem afterReads_r4 (s : State) : s.afterReads.r4 = s.r4 := rfl
@[simp] theorem afterReads_T (s : State) : s.afterReads.T = s.T := rfl
@[simp] theorem afterReads_L (s : State) : s.afterReads.L = s.L := rfl
@[simp] theorem afterReads_i (s : State) : s.afterReads.i = s.i := rfl
@[simp] theorem afterReads_m (s : State) : s.afterReads.m = headByte (s.streamOf .tms) := rfl
@[simp] theorem afterReads_d (s : State) : s.afterReads.d = headByte (s.streamOf .tdi) := rfl
@[simp] theorem afterReads_o (s : State) : s.afterReads.o = headByte (s.streamOf .tdom) := rfl
@[simp] theorem afterReads_obuf (s : State) : s.afterReads.obuf = s.obuf := rfl
@[simp] theorem afterReads_useTms (s : State) : s.afterReads.useTms = s.useTms := rfl
@[simp] theorem afterReads_useTdi (s : State) : s.afterReads.useTdi = s.useTdi := rfl
@[simp] theorem afterReads_useTdom (s : State) : s.afterReads.useTdom = s.useTdom := rfl
@[simp] theorem afterReads_streams (s : State) : s.afterReads.streams = s.streams.moved 1 := rfl
@[simp] theorem afterReads_schedule (s : State) : s.afterReads.schedule = s.schedule := rfl
@[simp] theorem afterReads_draws (s : State) : s.afterReads.draws = s.draws := rfl

/-! ### Streams -/

@[simp] theorem get_set_same (ss : Streams) (c : Cursor) (st : Stream) : (ss.set c st).get c = st := by
  cases c <;> rfl

@[simp] theorem get_set_other (ss : Streams) {c c' : Cursor} (st : Stream) (h : c' ≠ c) :
    (ss.set c st).get c' = ss.get c' := by
  cases c <;> cases c' <;> first | rfl | exact absurd rfl h

@[simp] theorem cursorOf_tms (s : State) : s.cursorOf .tms = s.useTms := rfl
@[simp] theorem cursorOf_tdi (s : State) : s.cursorOf .tdi = s.useTdi := rfl
@[simp] theorem cursorOf_tdom (s : State) : s.cursorOf .tdom = s.useTdom := rfl

/-- Two `Streams` that agree at each cursor are equal. -/
theorem streams_ext {ss ss' : Streams} (h : ∀ c, ss.get c = ss'.get c) : ss = ss' := by
  cases ss; cases ss'
  have h0 := h .c0; have h1 := h .c1; have h2 := h .c2
  simp only [Streams.get] at h0 h1 h2
  simp [h0, h1, h2]

/-- Three distinct cursors are all three of them. -/
theorem distinct_iff (a b c : Cursor) : cursorsDistinct a b c = true ↔ a ≠ b ∧ a ≠ c ∧ b ≠ c := by
  cases a <;> cases b <;> cases c <;> decide

/-- Of three distinct cursors, every cursor is one. -/
theorem cursor_cases {a b c : Cursor} (h : cursorsDistinct a b c = true) (x : Cursor) : x = a ∨ x = b ∨ x = c := by
  revert h; cases a <;> cases b <;> cases c <;> cases x <;> decide

/-! ### What the invariant says in each sequencer state -/

theorem seqFields_idle {s : State} (h : s.seq = .idle) : SeqFields s ↔ s.err = 0 ∧ s.obuf = none := by
  simp [SeqFields, h]

theorem seqFields_full {s : State} (h : s.seq = .full) : SeqFields s ↔
    s.err = 0 ∧ s.obuf.isSome = true ∧ CountRegs s ∧ s.i < s.q ∧ WrittenFrom s (s.T + 4 * (s.i + 1)) := by
  simp [SeqFields, h]

theorem seqFields_tail {s : State} (h : s.seq = .tail) : SeqFields s ↔
    s.err = 0 ∧ s.obuf.isSome = true ∧ CountRegs s ∧ s.r ≠ 0 ∧ WrittenFrom s s.T := by
  simp [SeqFields, h]

theorem seqFields_done {s : State} (h : s.seq = .done) : SeqFields s ↔
    s.err = 0 ∧ s.obuf.isSome = true ∧ CountRegs s ∧ WrittenFrom s 0 := by
  simp [SeqFields, h]

theorem seqFields_error {s : State} (h : s.seq = .error) : SeqFields s ↔ (s.err = 1 ∨ s.err = 2) ∧ s.obuf = none := by
  simp [SeqFields, h]

theorem busy_iff (s : State) : s.busy = true ↔ s.seq = .full ∨ s.seq = .tail := by
  cases h : s.seq <;> simp [State.busy, statusState, h]

end Sys2Proof.Machine
end

