-- ==== Sys2Proof/Laws/Ops.lean ====
section
/-! SUPPORT. One lemma for each shared operation: what it answers, and when. -/

namespace Sys2Proof.Machine

/-! ### Sequencing -/

@[simp] theorem andThen_next (s : State) (f : State → Result) : andThen (.next s) f = f s := rfl
@[simp] theorem andThen_fault (e : Fault) (f : State → Result) : andThen (.fault e) f = .fault e := rfl
@[simp] theorem andThen_refused (e : Refusal) (f : State → Result) : andThen (.refused e) f = .refused e := rfl

theorem andThen_eq_next {x : Result} {f : State → Result} {t : State} :
    andThen x f = .next t ↔ ∃ s, x = .next s ∧ f s = .next t := by
  cases x <;> simp

theorem andThen_assoc (x : Result) (f g : State → Result) :
    andThen (andThen x f) g = andThen x fun s => andThen (f s) g := by
  cases x <;> rfl

theorem unlessError_next (s : State) (f : State → Result) :
    unlessError (.next s) f = if s.seq = .error then .next s else f s := rfl
@[simp] theorem unlessError_fault (e : Fault) (f : State → Result) : unlessError (.fault e) f = .fault e := rfl
@[simp] theorem unlessError_refused (e : Refusal) (f : State → Result) : unlessError (.refused e) f = .refused e := rfl

theorem unlessError_of_error {s : State} (h : s.seq = .error) (f : State → Result) :
    unlessError (.next s) f = .next s := by simp [unlessError_next, h]

theorem unlessError_of_ne {s : State} (h : s.seq ≠ .error) (f : State → Result) :
    unlessError (.next s) f = f s := by simp [unlessError_next, h]

/-! ### Cells and writes -/

@[simp] theorem cell_setBuf (s : State) (mem : Memory) (a : Nat) : (s.setBuf mem).cell a = mem.read a := rfl

theorem cell_of_buf {s : State} {mem : Memory} (h : s.obuf = some mem) (a : Nat) : s.cell a = mem.read a := by
  simp [State.cell, h]

/-- MemWrite to an unwritten cell in bounds answers next. -/
theorem memWrite_ok {s : State} {mem : Memory} {off : Nat} {v : Byte} (hb : s.obuf = some mem) (hl : off < s.L)
    (hu : mem.read off = none) : memWrite off v s = .next (s.setBuf (mem.write off v)) := by
  simp [memWrite, hb, hu, Nat.not_le.2 hl]

/-- All that MemWrite can answer with a next state. -/
theorem memWrite_eq_next {s t : State} {off : Nat} {v : Byte} (h : memWrite off v s = .next t) :
    ∃ mem, s.obuf = some mem ∧ off < s.L ∧ mem.read off = none ∧ t = s.setBuf (mem.write off v) := by
  unfold memWrite at h
  split at h
  · cases h
  · rename_i mem hb
    split at h
    · cases h
    · split at h
      · cases h
      · rename_i hl hu
        cases h
        exact ⟨mem, hb, Nat.lt_of_not_le hl, by simpa using hu, rfl⟩

theorem vmask_isSome {k : Nat} (h : 1 ≤ k ∧ k ≤ 4) : vmask k = some (0xF - (((1 : Nibble) <<< (4 - k)) - 1)) := by
  simp [vmask, h]

/-- The buffer after a pair operation. -/
def pairMem (h : Half) (v : Nibble) (base : Nat) (s : State) (mem : Memory) : Memory :=
  (mem.write base (byteOfA h s.m s.d)).write (base + 1) (byteOfB h s.o v)

theorem pairMem_read_A (h : Half) (v : Nibble) (base : Nat) (s : State) (mem : Memory) :
    (pairMem h v base s mem).read base = some (byteOfA h s.m s.d) := by simp [pairMem]

theorem pairMem_read_B (h : Half) (v : Nibble) (base : Nat) (s : State) (mem : Memory) :
    (pairMem h v base s mem).read (base + 1) = some (byteOfB h s.o v) := by simp [pairMem]

theorem pairMem_read_other (h : Half) (v : Nibble) (base : Nat) (s : State) (mem : Memory) {a : Nat}
    (ha : a ≠ base) (hb : a ≠ base + 1) : (pairMem h v base s mem).read a = mem.read a := by
  simp [pairMem, ha, hb]

theorem pairMem_wf (h : Half) (v : Nibble) (base : Nat) (s : State) (mem : Memory) (hw : mem.wf = true) :
    (pairMem h v base s mem).wf = true := Memory.wf_write _ _ _ (Memory.wf_write _ _ _ hw)

/-- A pair operation with a mask, in bounds, on two unwritten cells, answers next; only the buffer changes. -/
theorem writePair_ok {h : Half} {k base : Nat} {v : Nibble} {s : State} {mem : Memory} (hk : vmask k = some v)
    (hb : s.obuf = some mem) (hl : base + 1 < s.L) (h0 : mem.read base = none) (h1 : mem.read (base + 1) = none) :
    writePair h k base s = .next (s.setBuf (pairMem h v base s mem)) := by
  unfold writePair
  rw [hk, memWrite_ok hb (by omega) h0]
  exact memWrite_ok (s := s.setBuf (mem.write base (byteOfA h s.m s.d))) rfl (by simpa using hl) (by simpa using h1)

/-- All that a pair operation can answer with a next state. -/
theorem writePair_eq_next {h : Half} {k base : Nat} {s t : State} (hn : writePair h k base s = .next t) :
    ∃ v mem, vmask k = some v ∧ s.obuf = some mem ∧ base + 1 < s.L ∧ mem.read base = none ∧
      mem.read (base + 1) = none ∧ t = s.setBuf (pairMem h v base s mem) := by
  unfold writePair at hn
  split at hn
  · cases hn
  · rename_i v hk
    obtain ⟨s1, h1, h2⟩ := andThen_eq_next.1 hn
    obtain ⟨mem, hb, hl, h0, rfl⟩ := memWrite_eq_next h1
    obtain ⟨mem', hb', hl', h0', rfl⟩ := memWrite_eq_next h2
    simp only [setBuf_obuf, Option.some.injEq] at hb'
    subst hb'
    exact ⟨v, mem, hk, hb, by simpa using hl', h0, by simpa using h0', rfl⟩

/-- Every pair operation is `writePair` at its base, with a half of the latches and a `k` that has a mask. -/
theorem exec_pair {i : Instr} {s : State} {base : Nat} (h : pairBase s i = some base) :
    ∃ hf k v, vmask k = some v ∧ validBits i = some v ∧ exec i s = writePair hf k base s := by
  cases i <;> simp only [pairBase, reduceCtorEq, Option.some.injEq] at h <;> subst h
  · exact ⟨.low, 4, 0xF, by decide, rfl, rfl⟩
  · exact ⟨.high, 4, 0xF, by decide, rfl, rfl⟩
  · exact ⟨.high, 4, 0xF, by decide, rfl, rfl⟩
  · exact ⟨.low, 1, 0x8, by decide, rfl, rfl⟩
  · exact ⟨.low, 2, 0xC, by decide, rfl, rfl⟩
  · exact ⟨.low, 3, 0xE, by decide, rfl, rfl⟩
  · exact ⟨.high, 1, 0x8, by decide, rfl, rfl⟩
  · exact ⟨.high, 2, 0xC, by decide, rfl, rfl⟩
  · exact ⟨.high, 3, 0xE, by decide, rfl, rfl⟩

/-! ### Runs -/

@[simp] theorem run_zero (s : State) : run 0 s = .next s := rfl

theorem run_succ (k : Nat) (s : State) : run (k + 1) s = andThen (step s) (run k) := by
  cases h : step s with
  | next s' =>
    have : Sys2Proof.core.step s = .next s' := h
    simp only [run, Host.Core.run, this, andThen]; rfl
  | fault e =>
    have : Sys2Proof.core.step s = .fault e := h
    simp only [run, Host.Core.run, this, andThen]; rfl
  | refused e =>
    have : Sys2Proof.core.step s = .refused e := h
    simp only [run, Host.Core.run, this, andThen]; rfl

/-! ### Stream reads -/

@[simp] theorem get_moved (ss : Streams) (n : Nat) (c : Cursor) : (ss.moved n).get c = (ss.get c).moved n := by
  cases c <;> rfl

theorem Stream.moved_moved (st : Stream) (n k : Nat) : (st.moved n).moved k = st.moved (n + k) := by
  simp only [Stream.moved, List.drop_drop, Stream.mk.injEq]
  refine ⟨?_, trivial⟩
  rw [List.append_assoc, List.take_add]

theorem Streams.moved_moved (ss : Streams) (n k : Nat) : (ss.moved n).moved k = ss.moved (n + k) := by
  simp [Streams.moved, Stream.moved_moved]

@[simp] theorem Stream.moved_zero (st : Stream) : st.moved 0 = st := by simp [Stream.moved]

@[simp] theorem Streams.moved_zero (ss : Streams) : ss.moved 0 = ss := by simp [Streams.moved]

/-- A read that raises no error: its byte, and the cursor moved on by one. -/
theorem streamRead_ok {g : Signal} {s : State} (h : headError (s.streamOf g) = none) :
    streamRead g s = .ok (headByte (s.streamOf g)) (s.setStreamOf g ((s.streamOf g).moved 1)) := by
  unfold headError at h
  unfold streamRead
  cases hu : (s.streamOf g).unread with
  | nil => simp [hu] at h
  | cons e rest =>
    have hf : elemFits e = true := by simpa [hu] using h
    simp [headByte, Stream.moved, hu, hf]

/-- A read that raises an error. -/
theorem streamRead_raised {g : Signal} {s : State} {e : ErrKind} (h : headError (s.streamOf g) = some e) :
    streamRead g s = .raised e := by
  unfold headError at h
  unfold streamRead
  cases hu : (s.streamOf g).unread with
  | nil => simp [hu] at h; simp [← h]
  | cons x rest =>
    simp only [hu] at h
    split at h
    · cases h
    · rename_i hf
      cases h
      simp [hf]

theorem streams_set_three {a b c : Cursor} (h : cursorsDistinct a b c = true) (ss : Streams) (x y z : Stream) :
    ∀ w, (((ss.set a x).set b y).set c z).get w = if w = a then x else if w = b then y else z := by
  cases a <;> cases b <;> cases c <;> revert h <;> simp [cursorsDistinct] <;> intro w <;> cases w <;> rfl

@[simp] theorem groupOutcome_ok_andThen (s : State) (f : State → GroupOutcome) :
    (GroupOutcome.ok s).andThen f = f s := rfl

@[simp] theorem groupOutcome_raised_andThen (e : ErrKind) (g : Signal) (s : State) (f : State → GroupOutcome) :
    (GroupOutcome.raised e g s).andThen f = .raised e g s := rfl

/-- One read into its latch, when it raises no error. -/
theorem readInto_ok {g : Signal} {s : State} (h : headError (s.streamOf g) = none) :
    readInto g s = .ok ((s.setStreamOf g ((s.streamOf g).moved 1)).setLatch g (headByte (s.streamOf g))) := by
  simp [readInto, streamRead_ok h]

/-- The three reads of a step, when none raises an error. -/
theorem readGroup_ok {s : State} (hd : cursorsDistinct s.useTms s.useTdi s.useTdom = true)
    (he : groupError s = none) : readGroup s = .ok s.afterReads := by
  obtain ⟨hab, hac, hbc⟩ := (distinct_iff _ _ _).1 hd
  simp only [groupError, Option.or_eq_none_iff] at he
  obtain ⟨⟨h1, h2⟩, h3⟩ := he
  have g2 : ((s.setStreamOf .tms ((s.streamOf .tms).moved 1)).setLatch .tms (headByte (s.streamOf .tms))).streamOf .tdi
      = s.streamOf .tdi := by
    simp [State.streamOf, State.setStreamOf, State.setLatch, State.cursorOf, Ne.symm hab]
  have g3 : ((((s.setStreamOf .tms ((s.streamOf .tms).moved 1)).setLatch .tms (headByte (s.streamOf .tms))).setStreamOf
      .tdi ((s.streamOf .tdi).moved 1)).setLatch .tdi (headByte (s.streamOf .tdi))).streamOf .tdom
      = s.streamOf .tdom := by
    simp [State.streamOf, State.setStreamOf, State.setLatch, State.cursorOf, Ne.symm hac, Ne.symm hbc]
  have hs : ((s.streams.set s.useTms ((s.streamOf .tms).moved 1)).set s.useTdi ((s.streamOf .tdi).moved 1)).set s.useTdom
      ((s.streamOf .tdom).moved 1) = s.streams.moved 1 := by
    refine streams_ext fun w => ?_
    rw [streams_set_three hd, get_moved]
    obtain rfl | rfl | rfl := cursor_cases hd w
    · simp [State.streamOf]
    · simp [State.streamOf, Ne.symm hab]
    · simp [State.streamOf, Ne.symm hac, Ne.symm hbc]
  rw [readGroup, readInto_ok h1, groupOutcome_ok_andThen, readInto_ok (by rw [g2]; exact h2), g2,
    groupOutcome_ok_andThen, readInto_ok (by rw [g3]; exact h3), g3]
  simp only [State.setLatch, State.setStreamOf, State.afterReads, State.cursorOf]
  rw [hs]

/-- The state at which the reads of a step stopped: latches may be written and cursors moved, nothing else. -/
structure ReadPart (s s' : State) : Prop where
  same : s' = { s with m := s'.m, d := s'.d, o := s'.o, streams := s'.streams }
  sequences : s.streams.SameSequences s'.streams

theorem Stream.moved_sequence (st : Stream) (n : Nat) :
    (st.moved n).taken ++ (st.moved n).unread = st.taken ++ st.unread := by
  simp [Stream.moved, List.append_assoc]

theorem sameSequences_refl (ss : Streams) : ss.SameSequences ss := fun _ => rfl

theorem sameSequences_trans {x y z : Streams} (h : x.SameSequences y) (h' : y.SameSequences z) :
    x.SameSequences z := fun c => (h c).trans (h' c)

theorem sameSequences_set {ss : Streams} {c : Cursor} {n : Nat} : ss.SameSequences (ss.set c ((ss.get c).moved n)) := by
  intro w
  by_cases h : w = c
  · subst h
    rw [get_set_same, Stream.moved_sequence]
  · rw [get_set_other _ _ h]

theorem ReadPart.refl (s : State) : ReadPart s s := ⟨rfl, sameSequences_refl _⟩

theorem ReadPart.trans {x y z : State} (h : ReadPart x y) (h' : ReadPart y z) : ReadPart x z := by
  refine ⟨?_, sameSequences_trans h.sequences h'.sequences⟩
  rw [h'.same, h.same]

/-- What one read into a latch leaves: success, or an error with nothing changed. -/
theorem readInto_cases (g : Signal) (s : State) :
    (∃ s', readInto g s = .ok s' ∧ ReadPart s s' ∧ headError (s.streamOf g) = none ∧
      ∀ g', s.cursorOf g' ≠ s.cursorOf g → s'.streamOf g' = s.streamOf g') ∨
    (∃ e, readInto g s = .raised e g s ∧ headError (s.streamOf g) = some e) := by
  cases h : headError (s.streamOf g) with
  | none =>
    refine .inl ⟨_, by unfold readInto; rw [streamRead_ok h], ⟨?_, ?_⟩, rfl, ?_⟩
    · cases g <;> rfl
    · have : ((s.setStreamOf g ((s.streamOf g).moved 1)).setLatch g (headByte (s.streamOf g))).streams
          = s.streams.set (s.cursorOf g) ((s.streams.get (s.cursorOf g)).moved 1) := by cases g <;> rfl
      rw [this]
      exact sameSequences_set
    · intro g' hne
      have : ((s.setStreamOf g ((s.streamOf g).moved 1)).setLatch g (headByte (s.streamOf g))).streamOf g'
          = (s.streams.set (s.cursorOf g) ((s.streams.get (s.cursorOf g)).moved 1)).get (s.cursorOf g') := by
        cases g <;> cases g' <;> rfl
      rw [this, get_set_other _ _ hne]
      rfl
  | some e => exact .inr ⟨e, by unfold readInto; rw [streamRead_raised h], rfl⟩

/-- The reads of a step, when one raises an error: it is the first in the order TMS, TDI, TDOM. -/
theorem readGroup_raised {s : State} (hd : cursorsDistinct s.useTms s.useTdi s.useTdom = true) {e : ErrKind}
    (he : groupError s = some e) : ∃ g s', readGroup s = .raised e g s' ∧ ReadPart s s' := by
  obtain ⟨hab, hac, hbc⟩ := (distinct_iff _ _ _).1 hd
  unfold readGroup
  obtain ⟨s1, r1, p1, h1, k1⟩ | ⟨e1, r1, h1⟩ := readInto_cases .tms s
  · rw [r1, groupOutcome_ok_andThen]
    have c1 : ∀ g, s1.cursorOf g = s.cursorOf g := by intro g; rw [p1.same]; cases g <;> rfl
    have t2 := k1 .tdi (by simpa using Ne.symm hab)
    have t3 := k1 .tdom (by simpa using Ne.symm hac)
    obtain ⟨s2, r2, p2, h2, k2⟩ | ⟨e2, r2, h2⟩ := readInto_cases .tdi s1
    · rw [r2, groupOutcome_ok_andThen]
      have t3' := k2 .tdom (by simpa [c1] using Ne.symm hbc)
      obtain ⟨s3, r3, p3, h3, _⟩ | ⟨e3, r3, h3⟩ := readInto_cases .tdom s2
      · rw [t2] at h2
        rw [t3', t3] at h3
        simp [groupError, h1, h2, h3] at he
      · rw [t2] at h2
        rw [t3', t3] at h3
        simp [groupError, h1, h2, h3] at he
        subst he
        exact ⟨_, _, r3, p1.trans p2⟩
    · rw [t2] at h2
      simp [groupError, h1, h2] at he
      subst he
      rw [r2]
      exact ⟨_, _, rfl, p1⟩
  · simp [groupError, h1] at he
    subst he
    rw [r1]
    exact ⟨_, _, rfl, .refl s⟩

/-- The two ways the reads of a step can go. -/
theorem readThen_cases (f : State → Result) {s : State}
    (hd : cursorsDistinct s.useTms s.useTdi s.useTdom = true) :
    (groupError s = none ∧ readThen f s = f s.afterReads) ∨
    ∃ e g s', groupError s = some e ∧ ReadPart s s' ∧ readThen f s = .next (raise e g s') := by
  cases h : groupError s with
  | none => exact .inl ⟨rfl, by simp [readThen, readGroup_ok hd h]⟩
  | some e =>
    obtain ⟨g, s', hr, hp⟩ := readGroup_raised hd h
    exact .inr ⟨e, some g, s', rfl, hp, by simp [readThen, hr]⟩

/-! ### Cursors after an error -/

theorem Stream.scatter_sequence (n : Nat) (st : Stream) :
    (st.scatter n).taken ++ (st.scatter n).unread = st.taken ++ st.unread := by
  simp [Stream.scatter]

theorem scatterCursors_sequences (s : State) : s.streams.SameSequences s.scatterCursors.streams := by
  intro c
  cases c <;> simp [State.scatterCursors, Streams.get, Stream.scatter_sequence]

end Sys2Proof.Machine
end

