-- ==== Sys2Proof/Laws/Sequencer.lean ====
section
/-! SUPPORT. What the steps of a transaction answer: a full group, the tail group, and the start. -/

namespace Sys2Proof.Machine

/-! ### Sizes -/

/-- `L = 4q + T` (41_encode.md R103). -/
theorem outLen_eq (n : Nat) : outLen n = 4 * (n / 8) + tailOffset n := by
  unfold outLen tailOffset ceilDiv
  split <;> split <;> omega

theorem tailOffset_le (n : Nat) : tailOffset n ≤ 4 := by
  unfold tailOffset
  split <;> split <;> omega

/-- tailOffset where the tail ends in a partial sub-group of its low nibble. -/
theorem tailOffset_four {n : Nat} (h : 4 ≤ n % 8) (h4 : n % 4 ≠ 0) : tailOffset n = 4 := by
  unfold tailOffset; split <;> split <;> omega

/-- tailOffset where the tail is one full sub-group. -/
theorem tailOffset_two_full {n : Nat} (h : 4 ≤ n % 8) (h4 : n % 4 = 0) : tailOffset n = 2 := by
  unfold tailOffset; split <;> split <;> omega

/-- tailOffset where the tail is one partial sub-group. -/
theorem tailOffset_two_part {n : Nat} (h : n % 8 < 4) (h0 : n % 8 ≠ 0) : tailOffset n = 2 := by
  unfold tailOffset; split <;> split <;> omega

theorem tailOffset_zero {n : Nat} (h : n % 8 = 0) : tailOffset n = 0 := by
  unfold tailOffset; split <;> split <;> omega

theorem CountRegs.L_eq {s : State} (h : CountRegs s) : s.L = 4 * s.q + s.T := by
  rw [h.L, h.q, h.T, outLen_eq]

/-- Every transaction consumes a whole number of groups: `ceil(n / 8) = n / 8 + (1 if n % 8 != 0 else 0)`
(41_encode.md R111). -/
theorem ceilDiv_eight (n : Nat) : ceilDiv n 8 = n / 8 + (if n % 8 = 0 then 0 else 1) := by
  unfold ceilDiv; split <;> omega

/-! ### Operations and the operation map -/

@[simp] theorem andThen_pure (x : Result) : (andThen x fun s => .next s) = x := by cases x <;> rfl

theorem runOps_single (i : Instr) (s : State) : runOps [i] s = exec i s := andThen_pure _

theorem runOps_pair (i j : Instr) (s : State) : runOps [i, j] s = andThen (exec i s) (exec j) := by
  simp only [runOps, andThen_pure]

theorem runSelected_fullOps (s : State) : runSelected (some fullOps) s = fullPairs s := runOps_pair _ _ s

/-- TAIL_FULL_HI leaves the count registers alone, so what follows it may read them before or after. -/
theorem andThen_tailFullHi (s : State) {f g : State → Result} (h : ∀ mem, f (s.setBuf mem) = g (s.setBuf mem)) :
    andThen (execTailFullHi s) f = andThen (execTailFullHi s) g := by
  cases hx : execTailFullHi s with
  | next s' =>
    obtain ⟨_, _, _, _, _, _, _, rfl⟩ := writePair_eq_next hx
    exact h _
  | fault e => rfl
  | refused e => rfl

/-- The operations the map names for a tail are the ones R100 runs (`r4` is a remainder by 4). -/
theorem runSelected_tailOps {s : State} (h4 : s.r4 < 4) : runSelected (tailOps s.r s.r4) s = tailPairs s := by
  unfold tailOps tailPairs
  have hc : s.r4 = 0 ∨ s.r4 = 1 ∨ s.r4 = 2 ∨ s.r4 = 3 := by omega
  split
  · obtain h | h | h | h := hc <;>
      simp only [h, tailPartLo, Option.map_some, runSelected, runOps_single, runOps_pair, exec, ↓reduceIte,
        Nat.reduceEqDiff, Nat.succ_ne_self]
    · rw [andThen_tailFullHi s (g := fun s' => .next s') (fun mem => by simp [h]), andThen_pure]
    all_goals exact andThen_tailFullHi s fun mem => by simp [h, partLoFor, exec]
  · obtain h | h | h | h := hc <;>
      simp [h, tailPartHi, runSelected, runOps_single, exec, partHiFor]

/-! ### A full group -/

/-- The buffer after a full group (R105). -/
def fullMem (s : State) (mem : Memory) : Memory :=
  pairMem .high 0xF (fullHiBase s) s (pairMem .low 0xF (fullLoBase s) s mem)

/-- The four bytes of a full group, by their place in it. -/
def fullByte (m d o : Byte) : Nat → Byte
  | 0 => byteOfA .low m d
  | 1 => byteOfB .low o 0xF
  | 2 => byteOfA .high m d
  | _ => byteOfB .high o 0xF

theorem vmask_four : vmask 4 = some 0xF := by decide
theorem vmask_three : vmask 3 = some 0xE := by decide
theorem vmask_two : vmask 2 = some 0xC := by decide
theorem vmask_one : vmask 1 = some 0x8 := by decide

/-- The pairs of a full group, in bounds and on unwritten cells, answer next; only the buffer changes. -/
theorem fullPairs_ok {s : State} {mem : Memory} (hb : s.obuf = some mem) (hl : s.T + 4 * s.i + 3 < s.L)
    (hu : ∀ a, s.T + 4 * s.i ≤ a → a ≤ s.T + 4 * s.i + 3 → mem.read a = none) :
    fullPairs s = .next (s.setBuf (fullMem s mem)) := by
  unfold fullPairs execFullLo
  rw [writePair_ok (h := .low) vmask_four hb (by simp only [fullLoBase]; omega)
    (hu _ (by simp only [fullLoBase]; omega) (by simp only [fullLoBase]; omega))
    (hu _ (by simp only [fullLoBase]; omega) (by simp only [fullLoBase]; omega)), andThen_next]
  have hread : ∀ a, fullHiBase s ≤ a → a ≤ fullHiBase s + 1 → (pairMem .low 0xF (fullLoBase s) s mem).read a = none := by
    intro a h1 h2
    simp only [fullHiBase] at h1 h2
    rw [pairMem_read_other _ _ _ _ _ (by simp only [fullLoBase]; omega) (by simp only [fullLoBase]; omega)]
    exact hu a (by omega) (by omega)
  exact writePair_ok (base := fullHiBase s) (s := s.setBuf (pairMem .low 0xF (fullLoBase s) s mem)) vmask_four rfl
    (by simp only [fullHiBase, setBuf_L]; omega) (hread _ (Nat.le_refl _) (by omega))
    (hread _ (by omega) (Nat.le_refl _))

theorem fullMem_read (s : State) (mem : Memory) (a : Nat) : (fullMem s mem).read a =
    if s.T + 4 * s.i ≤ a ∧ a < s.T + 4 * s.i + 4 then some (fullByte s.m s.d s.o (a - (s.T + 4 * s.i)))
    else mem.read a := by
  have e2 : fullHiBase s = s.T + 4 * s.i + 2 := rfl
  have e0 : fullLoBase s = s.T + 4 * s.i := rfl
  unfold fullMem
  by_cases h3 : a = fullHiBase s + 1
  · subst h3
    rw [pairMem_read_B, if_pos (by omega), show fullHiBase s + 1 - (s.T + 4 * s.i) = 3 by omega]
    rfl
  by_cases h2 : a = fullHiBase s
  · subst h2
    rw [pairMem_read_A, if_pos (by omega), show fullHiBase s - (s.T + 4 * s.i) = 2 by omega]
    rfl
  rw [pairMem_read_other _ _ _ _ _ h2 h3]
  by_cases h1 : a = fullLoBase s + 1
  · subst h1
    rw [pairMem_read_B, if_pos (by omega), show fullLoBase s + 1 - (s.T + 4 * s.i) = 1 by omega]
    rfl
  by_cases h0 : a = fullLoBase s
  · subst h0
    rw [pairMem_read_A, if_pos (by omega), show fullLoBase s - (s.T + 4 * s.i) = 0 by omega]
    rfl
  rw [pairMem_read_other _ _ _ _ _ h0 h1, if_neg (by omega)]

theorem fullMem_wf {s : State} {mem : Memory} (h : mem.wf = true) : (fullMem s mem).wf = true :=
  pairMem_wf _ _ _ _ _ (pairMem_wf _ _ _ _ _ h)

/-! ### The tail group -/

/-- VMASK for the tail's partial pair, from the register (R82). -/
def tailMask (r4 : Nat) : Nibble := 0xF - (((1 : Nibble) <<< (4 - r4)) - 1)

/-- The bytes of the tail group, by their offset (R107). -/
def tailByte (r r4 : Nat) (m d o : Byte) (a : Nat) : Byte :=
  if r < 4 then (if a = 0 then byteOfA .high m d else byteOfB .high o (tailMask r4))
  else if r4 = 0 then (if a = 0 then byteOfA .high m d else byteOfB .high o 0xF)
  else if a = 0 then byteOfA .low m d
  else if a = 1 then byteOfB .low o (tailMask r4)
  else if a = 2 then byteOfA .high m d
  else byteOfB .high o 0xF

/-- The pairs of the tail group, in bounds and on unwritten cells, answer next; only the buffer changes, and by the
bytes of R107 at the offsets below `T`. -/
theorem tailPairs_ok {s : State} {mem : Memory} (hr : CountRegs s) (h0 : s.r ≠ 0) (hb : s.obuf = some mem)
    (hw : mem.wf = true) (hu : ∀ a, a < s.T → mem.read a = none) :
    ∃ mem', tailPairs s = .next (s.setBuf mem') ∧ mem'.wf = true ∧
      ∀ a, mem'.read a = if a < s.T then some (tailByte s.r s.r4 s.m s.d s.o a) else mem.read a := by
  have hL := hr.L_eq
  have hr8 := hr.r
  have hr4 := hr.r4
  have hT := hr.T
  unfold tailPairs
  by_cases hlt : s.r < 4
  · rw [if_neg (by omega)]
    rw [tailOffset_two_part (by omega) (by omega)] at hT
    have hv : vmask s.r4 = some (tailMask s.r4) := vmask_isSome (by omega)
    have hp : partHiFor s.r4 s = writePair .high s.r4 0 s := by
      have hc : s.r4 = 1 ∨ s.r4 = 2 ∨ s.r4 = 3 := by omega
      obtain h | h | h := hc <;> rw [h] <;> rfl
    rw [hp, writePair_ok hv hb (by omega) (hu 0 (by omega)) (hu 1 (by omega))]
    refine ⟨_, rfl, pairMem_wf _ _ _ _ _ hw, fun a => ?_⟩
    by_cases ha0 : a = 0
    · subst ha0
      rw [pairMem_read_A, if_pos (by omega)]
      simp [tailByte, hlt]
    by_cases ha1 : a = 1
    · subst ha1
      rw [show (1 : Nat) = 0 + 1 from rfl, pairMem_read_B, if_pos (by omega)]
      simp [tailByte, hlt]
    · rw [pairMem_read_other _ _ _ _ _ ha0 ha1, if_neg (by omega)]
  · rw [if_pos (by omega)]
    by_cases h4 : s.r4 = 0
    · rw [tailOffset_two_full (by omega) (by omega)] at hT
      have hbase : tailFullHiBase s = 0 := by simp [tailFullHiBase, h4]
      rw [execTailFullHi, hbase, writePair_ok vmask_four hb (by omega) (hu 0 (by omega)) (hu 1 (by omega)),
        andThen_next, if_pos (by simpa using h4)]
      refine ⟨_, rfl, pairMem_wf _ _ _ _ _ hw, fun a => ?_⟩
      by_cases ha0 : a = 0
      · subst ha0
        rw [pairMem_read_A, if_pos (by omega)]
        simp [tailByte, hlt, h4]
      by_cases ha1 : a = 1
      · subst ha1
        rw [show (1 : Nat) = 0 + 1 from rfl, pairMem_read_B, if_pos (by omega)]
        simp [tailByte, hlt, h4]
      · rw [pairMem_read_other _ _ _ _ _ ha0 ha1, if_neg (by omega)]
    · rw [tailOffset_four (by omega) (by omega)] at hT
      have hbase : tailFullHiBase s = 2 := by simp [tailFullHiBase, Nat.pos_of_ne_zero h4]
      have hv : vmask s.r4 = some (tailMask s.r4) := vmask_isSome (by omega)
      have hp : ∀ t, partLoFor s.r4 t = writePair .low s.r4 0 t := by
        intro t
        have hc : s.r4 = 1 ∨ s.r4 = 2 ∨ s.r4 = 3 := by omega
        obtain h | h | h := hc <;> rw [h] <;> rfl
      rw [execTailFullHi, hbase, writePair_ok vmask_four hb (by omega) (hu 2 (by omega)) (hu 3 (by omega)),
        andThen_next, if_neg (by simpa using h4), setBuf_r4, hp,
        writePair_ok hv rfl (by simp only [setBuf_L]; omega)
          (by rw [pairMem_read_other _ _ _ _ _ (by omega) (by omega)]; exact hu 0 (by omega))
          (by rw [pairMem_read_other _ _ _ _ _ (by omega) (by omega)]; exact hu 1 (by omega))]
      refine ⟨_, rfl, pairMem_wf _ _ _ _ _ (pairMem_wf _ _ _ _ _ hw), fun a => ?_⟩
      by_cases ha0 : a = 0
      · subst ha0
        rw [pairMem_read_A, if_pos (by omega)]
        simp [tailByte, hlt, h4]
      by_cases ha1 : a = 1
      · subst ha1
        rw [show (1 : Nat) = 0 + 1 from rfl, pairMem_read_B, if_pos (by omega)]
        simp [tailByte, hlt, h4]
      rw [pairMem_read_other _ _ _ _ _ ha0 ha1]
      by_cases ha2 : a = 2
      · subst ha2
        rw [pairMem_read_A, if_pos (by omega)]
        simp [tailByte, hlt, h4]
      by_cases ha3 : a = 3
      · subst ha3
        rw [show (3 : Nat) = 2 + 1 from rfl, pairMem_read_B, if_pos (by omega)]
        simp [tailByte, hlt, h4]
      · rw [pairMem_read_other _ _ _ _ _ ha2 ha3, if_neg (by omega)]

/-! ### The steps -/

theorem ReadPart.seq {s s' : State} (h : ReadPart s s') : s'.seq = s.seq := by rw [h.same]

/-- A busy state with three distinct cursors: the reads of a step do as `readThen_cases` says, so a step either writes
its group and goes on, or ends in ERROR. Here for a full group. -/
theorem readThen_fullPairs {s : State} {mem : Memory} (hd : cursorsDistinct s.useTms s.useTdi s.useTdom = true)
    (hb : s.obuf = some mem) (hl : s.T + 4 * s.i + 3 < s.L)
    (hu : ∀ a, s.T + 4 * s.i ≤ a → a ≤ s.T + 4 * s.i + 3 → mem.read a = none) :
    (groupError s = none ∧ readThen fullPairs s = .next (s.afterReads.setBuf (fullMem s.afterReads mem))) ∨
    ∃ e g s', groupError s = some e ∧ ReadPart s s' ∧ readThen fullPairs s = .next (raise e g s') := by
  obtain ⟨h, hr⟩ | h := readThen_cases fullPairs hd
  · exact .inl ⟨h, by rw [hr]; exact fullPairs_ok (s := s.afterReads) hb hl hu⟩
  · exact .inr h

/-- The same for the tail group. -/
theorem readThen_tailPairs {s : State} {mem : Memory} (hd : cursorsDistinct s.useTms s.useTdi s.useTdom = true)
    (hc : CountRegs s) (h0 : s.r ≠ 0) (hb : s.obuf = some mem) (hw : mem.wf = true)
    (hu : ∀ a, a < s.T → mem.read a = none) :
    (groupError s = none ∧ ∃ mem', readThen tailPairs s = .next (s.afterReads.setBuf mem') ∧ mem'.wf = true ∧
      ∀ a, mem'.read a = if a < s.T then
        some (tailByte s.r s.r4 s.afterReads.m s.afterReads.d s.afterReads.o a) else mem.read a) ∨
    ∃ e g s', groupError s = some e ∧ ReadPart s s' ∧ readThen tailPairs s = .next (raise e g s') := by
  obtain ⟨h, hr⟩ | h := readThen_cases tailPairs hd
  · obtain ⟨mem', h1, h2, h3⟩ := tailPairs_ok (s := s.afterReads) ⟨hc.q, hc.r, hc.r4, hc.T, hc.L⟩ h0 hb hw hu
    exact .inl ⟨h, mem', by rw [hr, h1], h2, h3⟩
  · exact .inr h

/-- Running something equal on the state after the reads gives the same step. -/
theorem readThen_congr {f g : State → Result} {s : State} (h : ∀ s', s'.r = s.r → s'.r4 = s.r4 → f s' = g s') :
    readThen f s = readThen g s := by
  have key : ∀ s', readGroup s = .ok s' → s'.r = s.r ∧ s'.r4 = s.r4 := by
    intro s' hs
    unfold readGroup at hs
    obtain ⟨s1, r1, p1, _, _⟩ | ⟨e1, r1, _⟩ := readInto_cases .tms s
    · rw [r1, groupOutcome_ok_andThen] at hs
      obtain ⟨s2, r2, p2, _, _⟩ | ⟨e2, r2, _⟩ := readInto_cases .tdi s1
      · rw [r2, groupOutcome_ok_andThen] at hs
        obtain ⟨s3, r3, p3, _, _⟩ | ⟨e3, r3, _⟩ := readInto_cases .tdom s2
        · rw [r3] at hs
          cases hs
          rw [((p1.trans p2).trans p3).same]
          exact ⟨rfl, rfl⟩
        · rw [r3] at hs; cases hs
      · rw [r2] at hs; cases hs
    · rw [r1] at hs; cases hs
  unfold readThen
  cases hr : readGroup s with
  | ok s' => exact h s' (key s' hr).1 (key s' hr).2
  | raised e g s' => rfl

theorem tailStep_eq {s : State} (h4 : s.r4 < 4) :
    tailStep s = unlessError (readThen tailPairs s) fun s' => .next (finish s') := by
  unfold tailStep
  rw [readThen_congr (f := runSelected (tailOps s.r s.r4)) (g := tailPairs)]
  intro s' hr hr4
  rw [← hr, ← hr4]
  exact runSelected_tailOps (by omega)

theorem fullStep_eq (s : State) : fullStep s = unlessError (readThen fullPairs s) fun s' => .next (advance s') := by
  unfold fullStep
  rw [readThen_congr (f := runSelected (some fullOps)) (g := fullPairs)]
  intro s' _ _
  exact runSelected_fullOps s'

/-- All that a FULL step can do, from a state with the invariant. -/
theorem fullStep_cases {s : State} (hi : Invariant s) (hf : s.seq = .full) :
    (groupError s = none ∧ ∃ mem, s.obuf = some mem ∧
      fullStep s = .next (advance (s.afterReads.setBuf (fullMem s.afterReads mem)))) ∨
    ∃ e g s', groupError s = some e ∧ ReadPart s s' ∧ fullStep s = .next (raise e g s') := by
  have hfl := hi.fields
  unfold SeqFields at hfl
  simp only [hf] at hfl
  obtain ⟨_, hob, hc, hlt, hw⟩ := hfl
  obtain ⟨mem, hb⟩ := Option.isSome_iff_exists.1 hob
  have hd := hi.distinct (by simp [State.busy, statusState, hf])
  have hL := hc.L_eq
  have hu : ∀ a, s.T + 4 * s.i ≤ a → a ≤ s.T + 4 * s.i + 3 → mem.read a = none := by
    intro a _ h2
    have := (hw a).not.2 (by omega)
    rw [cell_of_buf hb] at this
    simpa using this
  rw [fullStep_eq]
  obtain ⟨h, hr⟩ | ⟨e, g, s', h, hp, hr⟩ := readThen_fullPairs hd hb (by omega) hu
  · refine .inl ⟨h, mem, hb, ?_⟩
    rw [hr, unlessError_of_ne]
    show s.seq ≠ .error
    simp [hf]
  · exact .inr ⟨e, g, s', h, hp, by rw [hr, unlessError_of_error rfl]⟩

/-- All that a TAIL step can do, from a state with the invariant. -/
theorem tailStep_cases {s : State} (hi : Invariant s) (hf : s.seq = .tail) :
    (groupError s = none ∧ ∃ mem mem', s.obuf = some mem ∧ tailStep s = .next (finish (s.afterReads.setBuf mem')) ∧
      mem'.wf = true ∧
      ∀ a, mem'.read a = if a < s.T then
        some (tailByte s.r s.r4 s.afterReads.m s.afterReads.d s.afterReads.o a) else mem.read a) ∨
    ∃ e g s', groupError s = some e ∧ ReadPart s s' ∧ tailStep s = .next (raise e g s') := by
  have hfl := hi.fields
  unfold SeqFields at hfl
  simp only [hf] at hfl
  obtain ⟨_, hob, hc, h0, hw⟩ := hfl
  obtain ⟨mem, hb⟩ := Option.isSome_iff_exists.1 hob
  have hd := hi.distinct (by simp [State.busy, statusState, hf])
  have hu : ∀ a, a < s.T → mem.read a = none := by
    intro a h2
    have := (hw a).not.2 (by omega)
    rw [cell_of_buf hb] at this
    simpa using this
  rw [tailStep_eq (by have := hc.r4; omega)]
  obtain ⟨h, mem', hr, hwf, hread⟩ | ⟨e, g, s', h, hp, hr⟩ := readThen_tailPairs hd hc h0 hb (hi.canonical mem hb) hu
  · refine .inl ⟨h, mem, mem', hb, ?_, hwf, hread⟩
    rw [hr, unlessError_of_ne]
    show s.seq ≠ .error
    simp [hf]
  · exact .inr ⟨e, g, s', h, hp, by rw [hr, unlessError_of_error rfl]⟩

end Sys2Proof.Machine
end

