-- ==== Sys2Proof/Laws/Encode.lean ====
section
/-! SUPPORT. What ENCODE answers: the loop over full groups, the tail, and the whole operation (41_encode.md R100). -/

namespace Sys2Proof.Machine

/-! ### Streams with enough elements -/

/-- The stream's next `n` elements are there and fit a byte. -/
def StreamFits (n : Nat) (st : Stream) : Prop := n ≤ st.unread.length ∧ ∀ e ∈ st.unread.take n, elemFits e = true

/-- The byte of the stream's `k`-th element from the cursor. -/
def elemByte (st : Stream) (k : Nat) : Byte := BitVec.ofInt 8 (st.unread.getD k 0)

theorem elemByte_zero (st : Stream) : elemByte st 0 = headByte st := by
  simp [elemByte, headByte, List.headD_eq_head?_getD, List.head?_eq_getElem?]

theorem elemByte_moved (st : Stream) (n k : Nat) : elemByte (st.moved n) k = elemByte st (n + k) := by
  simp [elemByte, Stream.moved]

@[simp] theorem streamFits_zero (st : Stream) : StreamFits 0 st := by simp [StreamFits]

theorem streamFits_succ (n : Nat) (st : Stream) :
    StreamFits (n + 1) st ↔ headError st = none ∧ StreamFits n (st.moved 1) := by
  cases h : st.unread with
  | nil => simp [StreamFits, headError, h]
  | cons e rest =>
    simp only [StreamFits, headError, Stream.moved, h]
    cases hf : elemFits e <;> simp [hf]

/-- All three operands' streams have their next `n` elements. -/
def OperandsFit (n : Nat) (s : State) : Prop := ∀ g, StreamFits n (s.streamOf g)

@[simp] theorem operandsFit_zero (s : State) : OperandsFit 0 s := fun _ => streamFits_zero _

theorem groupError_none_iff (s : State) : groupError s = none ↔ ∀ g, headError (s.streamOf g) = none := by
  simp only [groupError, Option.or_eq_none_iff]
  constructor
  · rintro ⟨⟨h1, h2⟩, h3⟩ g
    cases g <;> assumption
  · intro h
    exact ⟨⟨h _, h _⟩, h _⟩

theorem operandsFit_succ {n : Nat} {s t : State} (ht : ∀ g, t.streamOf g = (s.streamOf g).moved 1) :
    OperandsFit (n + 1) s ↔ groupError s = none ∧ OperandsFit n t := by
  simp only [OperandsFit, streamFits_succ, ht, groupError_none_iff]
  exact ⟨fun h => ⟨fun g => (h g).1, fun g => (h g).2⟩, fun h g => ⟨h.1 g, h.2 g⟩⟩

/-! ### The loop over full groups -/

/-- A state inside a transaction: three distinct cursors, no error, and a buffer with the cells of the groups still to
come unwritten. -/
structure Loop (n : Nat) (s : State) (mem : Memory) : Prop where
  distinct : cursorsDistinct s.useTms s.useTdi s.useTdom = true
  seq : s.seq ≠ .error
  buf : s.obuf = some mem
  canonical : mem.wf = true
  fits : s.T + 4 * n ≤ s.L
  free : ∀ a, a < s.T + 4 * n → mem.read a = none

/-- The state after `n` groups that raised no error. -/
def afterGroups (n : Nat) (s : State) (mem : Memory) : State :=
  { s with
    i := if n = 0 then s.i else 0
    m := if n = 0 then s.m else elemByte (s.streamOf .tms) (n - 1)
    d := if n = 0 then s.d else elemByte (s.streamOf .tdi) (n - 1)
    o := if n = 0 then s.o else elemByte (s.streamOf .tdom) (n - 1)
    streams := s.streams.moved n
    obuf := some mem }

/-- The byte of the full groups' region at place `a`, counted from `T`: group `a / 4` is element `n - 1 - a / 4`
(R104, R105). -/
def groupsByte (n : Nat) (s : State) (a : Nat) : Byte :=
  fullByte (elemByte (s.streamOf .tms) (n - 1 - a / 4)) (elemByte (s.streamOf .tdi) (n - 1 - a / 4))
    (elemByte (s.streamOf .tdom) (n - 1 - a / 4)) (a % 4)

/-- The parts of a state that a failed transaction keeps. -/
structure Kept (s s' : State) : Prop where
  same : s' = { s with i := s'.i, m := s'.m, d := s'.d, o := s'.o, streams := s'.streams, obuf := s'.obuf }
  sequences : s.streams.SameSequences s'.streams

theorem ReadPart.kept {s s' : State} (h : ReadPart s s') : Kept s s' := by
  refine ⟨?_, h.sequences⟩
  have := h.same
  generalize s'.m = m', s'.d = d', s'.o = o', s'.streams = st' at this
  subst this
  rfl

theorem Kept.trans {x y z : State} (h : Kept x y) (h' : Kept y z) : Kept x z := by
  refine ⟨?_, sameSequences_trans h.sequences h'.sequences⟩
  have h1 := h.same
  have h2 := h'.same
  rw [h2, h1]

theorem sameSequences_moved (ss : Streams) (n : Nat) : ss.SameSequences (ss.moved n) := by
  intro c
  rw [get_moved, Stream.moved_sequence]

/-- What the loop over full groups answers. -/
theorem fullGroups_cases (n : Nat) {s : State} {mem : Memory} (h : Loop n s mem) :
    (OperandsFit n s ∧ ∃ mem', fullGroups n s = .next (afterGroups n s mem') ∧ mem'.wf = true ∧
      ∀ a, mem'.read a = if s.T ≤ a ∧ a < s.T + 4 * n then some (groupsByte n s (a - s.T)) else mem.read a) ∨
    (¬OperandsFit n s ∧ ∃ e g s', Kept s s' ∧ fullGroups n s = .next (raise e g s')) := by
  induction n generalizing s mem with
  | zero =>
    refine .inl ⟨operandsFit_zero _, mem, ?_, h.canonical, ?_⟩
    · have := h.buf
      cases s
      simp only at this
      subst this
      simp [fullGroups, afterGroups]
    · intro a
      rw [if_neg (by omega)]
  | succ n ih =>
    unfold fullGroups
    have hfit := h.fits
    obtain ⟨hg, hr⟩ | ⟨e, g, s', hg, hp, hr⟩ := readThen_fullPairs (s := { s with i := n }) (mem := mem) h.distinct h.buf
      (by show s.T + 4 * n + 3 < s.L; omega)
      (fun a _ h2 => h.free a (by change a ≤ s.T + 4 * n + 3 at h2; omega))
    · rw [hr, unlessError_of_ne (by exact h.seq)]
      have hread := fullMem_read (State.afterReads { s with i := n }) mem
      have hT : (State.afterReads { s with i := n }).T = s.T := rfl
      have hi : (State.afterReads { s with i := n }).i = n := rfl
      rw [hT, hi] at hread
      generalize hmem1 : fullMem (State.afterReads { s with i := n }) mem = mem1 at *
      have hloop : Loop n ((State.afterReads { s with i := n }).setBuf mem1) mem1 := by
        refine ⟨h.distinct, h.seq, rfl, ?_, ?_, ?_⟩
        · rw [← hmem1]; exact fullMem_wf h.canonical
        · show s.T + 4 * n ≤ s.L; omega
        · intro a ha
          change a < s.T + 4 * n at ha
          rw [hread, if_neg (by omega)]
          exact h.free a (by omega)
      have hst : ∀ g, ((State.afterReads { s with i := n }).setBuf mem1).streamOf g = (s.streamOf g).moved 1 := by
        intro g
        show (s.streams.moved 1).get _ = _
        rw [get_moved]
        cases g <;> rfl
      have hsucc := operandsFit_succ (n := n) (s := s) hst
      have hgs : groupError s = none := hg
      obtain ⟨ho, mem', he, hwf, hm⟩ | ⟨hno, e, g, s', hk, he⟩ := ih hloop
      · refine .inl ⟨hsucc.2 ⟨hgs, ho⟩, mem', ?_, hwf, ?_⟩
        · rw [he]
          simp only [afterGroups, hst, elemByte_moved]
          have e1 : ((State.afterReads { s with i := n }).setBuf mem1).streams = s.streams.moved 1 := rfl
          rw [e1, Streams.moved_moved, Nat.add_comm 1 n]
          simp only [Nat.add_one_ne_zero, if_false]
          by_cases hn : n = 0
          · subst hn
            simp [State.setBuf, State.afterReads, elemByte_zero]
            exact ⟨rfl, rfl, rfl⟩
          · simp only [hn, if_false, State.setBuf, State.afterReads, show 1 + (n - 1) = n by omega,
              Nat.add_sub_cancel]
        · intro a
          rw [hm, hread]
          have hT1 : ((State.afterReads { s with i := n }).setBuf mem1).T = s.T := rfl
          rw [hT1]
          by_cases h1 : s.T ≤ a ∧ a < s.T + 4 * n
          · rw [if_pos h1, if_pos (by omega)]
            simp only [groupsByte, hst, elemByte_moved]
            rw [show 1 + (n - 1 - (a - s.T) / 4) = n + 1 - 1 - (a - s.T) / 4 by omega]
          · rw [if_neg h1]
            by_cases h2 : s.T + 4 * n ≤ a ∧ a < s.T + 4 * n + 4
            · rw [if_pos h2, if_pos (by omega)]
              simp only [groupsByte]
              rw [show (a - s.T) / 4 = n by omega, show (a - s.T) % 4 = a - (s.T + 4 * n) by omega,
                show n + 1 - 1 - n = 0 by omega]
              simp only [elemByte_zero, State.afterReads]
              rfl
            · rw [if_neg h2, if_neg (by omega)]
      · refine .inr ⟨fun ho => hno (hsucc.1 ho).2, e, g, s', ?_, he⟩
        refine Kept.trans ⟨?_, ?_⟩ hk
        · simp [State.setBuf, State.afterReads]
        · exact sameSequences_moved _ _
    · have hne : ¬OperandsFit (n + 1) s := by
        intro ho
        have : groupError s = none := (groupError_none_iff s).2 fun g => ((streamFits_succ n _).1 (ho g)).1
        have hge : groupError s = some e := hg
        rw [this] at hge
        cases hge
      refine .inr ⟨hne, e, g, s', Kept.trans ?_ hp.kept, by rw [hr, unlessError_of_error rfl]⟩
      exact ⟨rfl, sameSequences_refl _⟩

/-! ### The whole operation -/

/-- The state after an accepted start. -/
def started (n : Nat) (a b c : Cursor) (s : State) : State := (s.bind a b c).latchCount n

theorem started_regs (n : Nat) (a b c : Cursor) (s : State) : CountRegs (started n a b c s) :=
  ⟨rfl, rfl, rfl, rfl, rfl⟩

theorem firstSeq_ne_error (n : Nat) : firstSeq n ≠ .error := by
  unfold firstSeq; split
  · simp
  · split <;> simp

theorem started_seq (n : Nat) (a b c : Cursor) (s : State) : (started n a b c s).seq ≠ .error := firstSeq_ne_error n

theorem startTransaction_ok {s : State} (hb : s.busy = false) {a b c : Cursor} (hd : cursorsDistinct a b c = true)
    (n : Nat) : startTransaction n a b c s = .next (started n a b c s) := by
  simp [startTransaction, hb, hd, acceptStart, started]

theorem started_loop {s : State} {a b c : Cursor} (hd : cursorsDistinct a b c = true) (n : Nat) :
    Loop (n / 8) (started n a b c s) [] := by
  refine ⟨hd, started_seq n a b c s, rfl, rfl, ?_, fun _ _ => rfl⟩
  show tailOffset n + 4 * (n / 8) ≤ outLen n
  rw [outLen_eq]; omega

/-- The byte of the output at an offset: the tail's below `T`, the full groups' from there on. -/
def outByte (n : Nat) (s : State) (a : Nat) : Byte :=
  if a < tailOffset n then
    tailByte (n % 8) (n % 4) (elemByte (s.streamOf .tms) (n / 8)) (elemByte (s.streamOf .tdi) (n / 8))
      (elemByte (s.streamOf .tdom) (n / 8)) a
  else groupsByte (n / 8) s (a - tailOffset n)

/-- The state a successful transaction ends in. -/
def finished (n : Nat) (s : State) (mem : Memory) : State :=
  finish { afterGroups (ceilDiv n 8) s mem with i := if n / 8 = 0 then s.i else 0 }

/-- What ENCODE of a count answers on distinct cursors outside a transaction. -/
theorem execEncode_cases {s : State} (hb : s.busy = false) {a b c : Cursor} (hd : cursorsDistinct a b c = true)
    (n : Nat) :
    (OperandsFit (ceilDiv n 8) (started n a b c s) ∧ ∃ mem,
      execEncode n a b c s = .next (finished n (started n a b c s) mem) ∧ mem.wf = true ∧
      ∀ x, mem.read x = if x < outLen n then some (outByte n (started n a b c s) x) else none) ∨
    (¬OperandsFit (ceilDiv n 8) (started n a b c s) ∧ ∃ e g s', Kept (started n a b c s) s' ∧
      execEncode n a b c s = .next (raise e g s')) := by
  unfold execEncode
  rw [startTransaction_ok hb hd, unlessError_of_ne (started_seq n a b c s)]
  have hT : (started n a b c s).T = tailOffset n := rfl
  have hq : (started n a b c s).q = n / 8 := rfl
  have hr : (started n a b c s).r = n % 8 := rfl
  have hL := outLen_eq n
  rw [hq]
  generalize hs0 : started n a b c s = s0 at *
  have hloop : Loop (n / 8) s0 [] := by rw [← hs0]; exact started_loop hd n
  have hregs : CountRegs s0 := by rw [← hs0]; exact started_regs n a b c s
  have hcnt : s0.cnt = n := by rw [← hs0]; rfl
  have hr4 : s0.r4 = n % 4 := by rw [← hs0]; rfl
  have hq8 := ceilDiv_eight n
  obtain ⟨ho, mem, he, hwf, hm⟩ | ⟨hno, e, g, s', hk, he⟩ := fullGroups_cases (n / 8) hloop
  · rw [he, unlessError_of_ne (by exact hloop.seq)]
    unfold tailGroup
    have hr' : (afterGroups (n / 8) s0 mem).r = n % 8 := hr
    rw [hr']
    by_cases h0 : n % 8 = 0
    · rw [if_pos h0, unlessError_of_ne (by exact hloop.seq)]
      rw [if_pos h0, Nat.add_zero] at hq8
      refine .inl ⟨by rw [hq8]; exact ho, mem, by simp only [finished, hq8, afterGroups], hwf, fun x => ?_⟩
      rw [hm, hT]
      have hz := tailOffset_zero h0
      by_cases hx : x < outLen n
      · rw [if_pos hx, if_pos (by omega)]
        simp only [outByte]
        rw [if_neg (by omega)]
      · rw [if_neg hx, if_neg (by omega)]
        rfl
    · rw [if_neg h0]
      rw [if_neg h0] at hq8
      have hst : ∀ g, (afterGroups (n / 8) s0 mem).streamOf g = (s0.streamOf g).moved (n / 8) := by
        intro g
        show (s0.streams.moved (n / 8)).get _ = _
        rw [get_moved]
        cases g <;> rfl
      have hsplit : OperandsFit (n / 8 + 1) s0 ↔ groupError (afterGroups (n / 8) s0 mem) = none := by
        rw [groupError_none_iff]
        constructor
        · intro h g
          rw [hst]
          have hg := h g
          simp only [headError, Stream.moved]
          cases hu : (s0.streamOf g).unread.drop (n / 8) with
          | nil =>
            have := List.drop_eq_nil_iff.1 hu
            have := hg.1
            omega
          | cons e rest =>
            have hmem : e ∈ (s0.streamOf g).unread.take (n / 8 + 1) := by
              rw [List.take_add, hu]; simp
            simp [hg.2 e hmem]
        · intro h g
          have hg := h g
          rw [hst] at hg
          simp only [headError, Stream.moved] at hg
          cases hu : (s0.streamOf g).unread.drop (n / 8) with
          | nil => simp [hu] at hg
          | cons e rest =>
            have hf : elemFits e = true := by simpa [hu] using hg
            refine ⟨?_, ?_⟩
            · have := congrArg List.length hu
              simp at this
              omega
            · intro x hx
              rw [List.take_add, hu] at hx
              simp only [List.take_succ_cons, List.take_zero, List.mem_append, List.mem_singleton] at hx
              obtain hx | rfl := hx
              · exact (ho g).2 x hx
              · exact hf
      obtain ⟨hg, mem', hrd, hwf', hm'⟩ | ⟨e, g, s', hg, hp, hrd⟩ :=
        readThen_tailPairs (s := afterGroups (n / 8) s0 mem) (mem := mem) hloop.distinct
          ⟨hregs.q, hregs.r, hregs.r4, hregs.T, hregs.L⟩ (by rw [hr']; exact h0) rfl hwf
          (by
            intro x hx
            change x < s0.T at hx
            rw [hm, if_neg (by omega)]; rfl)
      · rw [hrd, unlessError_of_ne (by exact hloop.seq)]
        refine .inl ⟨by rw [hq8]; exact hsplit.2 hg, mem', ?_, hwf', fun x => ?_⟩
        · have e1 : ∀ g, headByte ((afterGroups (n / 8) s0 mem).streamOf g) = elemByte (s0.streamOf g) (n / 8) := by
            intro g
            rw [hst, ← elemByte_zero, elemByte_moved, Nat.add_zero]
          simp only [finished, hq8, State.setBuf, State.afterReads, e1]
          simp only [afterGroups, Streams.moved_moved, Nat.add_one_ne_zero, if_false, Nat.add_sub_cancel]
        · have e1 : ∀ g, headByte ((afterGroups (n / 8) s0 mem).streamOf g) = elemByte (s0.streamOf g) (n / 8) := by
            intro g
            rw [hst, ← elemByte_zero, elemByte_moved, Nat.add_zero]
          have hT' : (afterGroups (n / 8) s0 mem).T = tailOffset n := hT
          have hr4' : (afterGroups (n / 8) s0 mem).r4 = n % 4 := hr4
          rw [hm', hm, hT', hT, hr', hr4']
          unfold outByte
          by_cases h1 : x < tailOffset n
          · rw [if_pos h1, if_pos (by omega), if_pos h1]
            simp only [State.afterReads, e1]
          · rw [if_neg h1, if_neg h1]
            by_cases h2 : x < outLen n
            · rw [if_pos h2, if_pos (by omega)]
            · rw [if_neg h2, if_neg (by omega)]
              rfl
      · have hno : ¬OperandsFit (ceilDiv n 8) s0 := by
          rw [hq8]
          intro h
          rw [hsplit.1 h] at hg
          cases hg
        refine .inr ⟨hno, e, g, s', ?_, by rw [hrd, unlessError_of_error rfl]⟩
        refine Kept.trans ⟨?_, sameSequences_moved _ _⟩ hp.kept
        simp [afterGroups]
  · refine .inr ⟨?_, e, g, s', hk, by rw [he]; exact unlessError_of_error rfl _⟩
    intro h
    apply hno
    intro g
    have hg := h g
    refine ⟨by have := hg.1; rw [hq8] at this; split at this <;> omega, fun x hx => hg.2 x ?_⟩
    exact List.mem_of_mem_take (i := n / 8) (by
      rw [List.take_take, Nat.min_eq_left (by rw [hq8]; split <;> omega)]; exact hx)

end Sys2Proof.Machine
end

