-- ==== Sys2Proof/Laws/Invariant.lean ====
section
/-! SUPPORT. The invariant of the states the operations answer, one lemma for each way a transaction goes on; what a
start answers; and what the result is at DONE. -/

namespace Sys2Proof.Machine

/-! ### The encoder's turn -/

theorem step_of_acts {s s' : State} (h : EncoderActs s s') : step s = encoderStep s' := by
  obtain ⟨h, rfl⟩ | ⟨rest, h, rfl⟩ := h <;> simp [step, h, takeTurn]

/-- Only the schedule differs. -/
theorem acts_eq {s s' : State} (h : EncoderActs s s') : s' = { s with schedule := s'.schedule } := by
  obtain ⟨_, rfl⟩ | ⟨_, _, rfl⟩ := h <;> rfl

/-! ### The invariant does not read the schedule, the streams or the draws -/

theorem CountRegs.congr {s t : State} (h : CountRegs s) (hc : t.cnt = s.cnt) (hq : t.q = s.q) (hr : t.r = s.r)
    (hr4 : t.r4 = s.r4) (hT : t.T = s.T) (hL : t.L = s.L) : CountRegs t :=
  ⟨by rw [hq, hc, h.q], by rw [hr, hc, h.r], by rw [hr4, hc, h.r4], by rw [hT, hc, h.T], by rw [hL, hc, h.L]⟩

theorem invariant_caller {s : State} (h : Invariant s) (l : List Turn) (ss : Streams) (n : Nat) :
    Invariant { s with schedule := l, streams := ss, draws := n } := by
  refine ⟨?_, h.canonical, h.distinct⟩
  have hf := h.fields
  cases hs : s.seq with
  | idle => exact (seqFields_idle rfl).2 ((seqFields_idle hs).1 hf)
  | full =>
    obtain ⟨h1, h2, h3, h4, h5⟩ := (seqFields_full hs).1 hf
    exact (seqFields_full rfl).2 ⟨h1, h2, h3.congr rfl rfl rfl rfl rfl rfl, h4, h5⟩
  | tail =>
    obtain ⟨h1, h2, h3, h4, h5⟩ := (seqFields_tail hs).1 hf
    exact (seqFields_tail rfl).2 ⟨h1, h2, h3.congr rfl rfl rfl rfl rfl rfl, h4, h5⟩
  | done =>
    obtain ⟨h1, h2, h3, h4⟩ := (seqFields_done hs).1 hf
    exact (seqFields_done rfl).2 ⟨h1, h2, h3.congr rfl rfl rfl rfl rfl rfl, h4⟩
  | error => exact (seqFields_error rfl).2 ((seqFields_error hs).1 hf)

theorem acts_invariant {s s' : State} (h : EncoderActs s s') (hi : Invariant s) : Invariant s' := by
  rw [acts_eq h]; exact invariant_caller hi _ _ _

/-! ### The ways a transaction goes on -/

theorem raise_invariant (e : ErrKind) (g : Option Signal) (s : State) : Invariant (raise e g s) := by
  refine ⟨(seqFields_error rfl).2 ⟨?_, rfl⟩, fun _ h => (by cases h), fun h => by cases h⟩
  cases e
  · exact .inl rfl
  · exact .inr rfl

theorem started_invariant {s : State} {a b c : Cursor} (hd : cursorsDistinct a b c = true) (n : Nat) :
    Invariant (started n a b c s) := by
  refine ⟨?_, fun _ h => (by cases h; rfl), fun _ => hd⟩
  have hr := started_regs n a b c s
  have hL := hr.L_eq
  have hq : (started n a b c s).q = n / 8 := rfl
  have hT : (started n a b c s).T = tailOffset n := rfl
  have hrr : (started n a b c s).r = n % 8 := rfl
  have hc : ∀ x, (started n a b c s).cell x = none := fun _ => rfl
  have hi : (started n a b c s).i = if 0 < n / 8 then n / 8 - 1 else s.i := rfl
  have hs : (started n a b c s).seq = firstSeq n := rfl
  unfold firstSeq at hs
  split at hs
  · rw [if_pos ‹_›] at hi
    refine (seqFields_full hs).2 ⟨rfl, rfl, hr, by omega, fun x => ?_⟩
    simp [hc]; omega
  · split at hs
    · have := tailOffset_zero ‹_›
      refine (seqFields_done hs).2 ⟨rfl, rfl, hr, fun x => ?_⟩
      simp [hc]; omega
    · refine (seqFields_tail hs).2 ⟨rfl, rfl, hr, by omega, fun x => ?_⟩
      simp [hc]; omega

theorem fullStep_invariant {s : State} (hi : Invariant s) (hf : s.seq = .full) {mem : Memory} (hb : s.obuf = some mem) :
    Invariant (advance (s.afterReads.setBuf (fullMem s.afterReads mem))) := by
  obtain ⟨he, _, hc, hlt, hw⟩ := (seqFields_full hf).1 hi.fields
  have hd := hi.distinct (by simp [State.busy, statusState, hf])
  have hL := hc.L_eq
  have hwf := fullMem_wf (s := s.afterReads) (hi.canonical mem hb)
  have hread := fullMem_read s.afterReads mem
  rw [show s.afterReads.T = s.T from rfl, show s.afterReads.i = s.i from rfl] at hread
  generalize fullMem s.afterReads mem = mem' at *
  have hw' : ∀ a, (mem'.read a).isSome = true ↔ s.T + 4 * s.i ≤ a ∧ a < s.L := by
    intro a
    have := hw a
    rw [cell_of_buf hb] at this
    rw [hread]
    split
    · simp; omega
    · rw [this]; omega
  have hregs : ∀ t : State, t.cnt = s.cnt → t.q = s.q → t.r = s.r → t.r4 = s.r4 → t.T = s.T → t.L = s.L →
    CountRegs t := fun _ => hc.congr
  unfold advance
  rw [show (s.afterReads.setBuf mem').i = s.i from rfl, show (s.afterReads.setBuf mem').r = s.r from rfl]
  split
  · refine ⟨(seqFields_full (by exact hf)).2 ⟨he, rfl, hregs _ rfl rfl rfl rfl rfl rfl, ?_, fun a => ?_⟩,
      fun _ h => (by cases h; exact hwf), fun _ => hd⟩
    · show s.i - 1 < s.q
      omega
    · show (mem'.read a).isSome = true ↔ s.T + 4 * (s.i - 1 + 1) ≤ a ∧ a < s.L
      rw [hw']; omega
  · split
    · refine ⟨(seqFields_done rfl).2 ⟨rfl, rfl, hregs _ rfl rfl rfl rfl rfl rfl, fun a => ?_⟩,
        fun _ h => (by cases h; exact hwf), fun h => by cases h⟩
      show (mem'.read a).isSome = true ↔ 0 ≤ a ∧ a < s.L
      have h0 := hc.T
      have := hc.r
      rw [tailOffset_zero (by omega)] at h0
      rw [hw']; omega
    · refine ⟨(seqFields_tail rfl).2 ⟨he, rfl, hregs _ rfl rfl rfl rfl rfl rfl, by assumption, fun a => ?_⟩,
        fun _ h => (by cases h; exact hwf), fun _ => hd⟩
      show (mem'.read a).isSome = true ↔ s.T ≤ a ∧ a < s.L
      rw [hw']; omega

theorem tailStep_invariant {s : State} (hi : Invariant s) (hf : s.seq = .tail) {mem mem' : Memory}
    (hb : s.obuf = some mem) (hwf : mem'.wf = true) (f : Nat → Byte)
    (hread : ∀ a, mem'.read a = if a < s.T then some (f a) else mem.read a) :
    Invariant (finish (s.afterReads.setBuf mem')) := by
  obtain ⟨_, _, hc, _, hw⟩ := (seqFields_tail hf).1 hi.fields
  have hL := hc.L_eq
  refine ⟨(seqFields_done rfl).2 ⟨rfl, rfl, hc.congr rfl rfl rfl rfl rfl rfl, fun a => ?_⟩,
    fun _ h => (by cases h; exact hwf), fun h => by cases h⟩
  have := hw a
  rw [cell_of_buf hb] at this
  show (mem'.read a).isSome = true ↔ 0 ≤ a ∧ a < s.L
  rw [hread]
  split
  · simp; omega
  · rw [this]; omega

theorem finished_invariant {s : State} {n : Nat} {a b c : Cursor} {mem : Memory} (hwf : mem.wf = true)
    (hm : ∀ x, mem.read x = if x < outLen n then some (outByte n (started n a b c s) x) else none) :
    Invariant (finished n (started n a b c s) mem) := by
  refine ⟨(seqFields_done rfl).2 ⟨rfl, rfl, ⟨rfl, rfl, rfl, rfl, rfl⟩, fun x => ?_⟩,
    fun _ h => (by cases h; exact hwf), fun h => by cases h⟩
  show (mem.read x).isSome = true ↔ 0 ≤ x ∧ x < outLen n
  rw [hm]
  split <;> simp <;> omega

/-! ### What a start and a call answer -/

theorem acceptStart_cases (count : Int) (a b c : Cursor) (s : State) :
    (∃ n : Nat, count = n ∧ acceptStart count a b c s = started n a b c s) ∨
    (count < 0 ∧ acceptStart count a b c s = raise .invalidArgument none (s.bind a b c)) := by
  unfold acceptStart
  split
  · exact .inr ⟨‹_›, rfl⟩
  · exact .inl ⟨count.toNat, by omega, rfl⟩

theorem startTransaction_cases (count : Int) (a b c : Cursor) (s : State) :
    (s.busy = true ∧ startTransaction count a b c s = .fault .startWhileBusy) ∨
    (s.busy = false ∧ cursorsDistinct a b c = false ∧ startTransaction count a b c s = .refused .sharedCursors) ∨
    (s.busy = false ∧ cursorsDistinct a b c = true ∧
      startTransaction count a b c s = .next (acceptStart count a b c s) ∧ Invariant (acceptStart count a b c s)) := by
  cases hb : s.busy
  · cases hd : cursorsDistinct a b c
    · simp [startTransaction, hb, hd]
    · refine .inr (.inr ⟨rfl, rfl, by simp [startTransaction, hb, hd], ?_⟩)
      obtain ⟨n, rfl, h⟩ | ⟨_, h⟩ := acceptStart_cases count a b c s <;> rw [h]
      · exact started_invariant hd n
      · exact raise_invariant _ _ _
  · simp [startTransaction, hb]

theorem execEncode_outcomes (count : Int) (a b c : Cursor) (s : State) :
    (s.busy = true ∧ execEncode count a b c s = .fault .startWhileBusy) ∨
    (s.busy = false ∧ cursorsDistinct a b c = false ∧ execEncode count a b c s = .refused .sharedCursors) ∨
    (s.busy = false ∧ cursorsDistinct a b c = true ∧ ∃ t, execEncode count a b c s = .next t ∧ Invariant t) := by
  cases hb : s.busy
  · cases hd : cursorsDistinct a b c
    · simp [execEncode, startTransaction, hb, hd]
    · refine .inr (.inr ⟨rfl, rfl, ?_⟩)
      obtain ⟨n, rfl, _⟩ | ⟨_, h⟩ := acceptStart_cases count a b c s
      · obtain ⟨_, mem, h1, h2, h3⟩ | ⟨_, e, g, s', _, h1⟩ := execEncode_cases hb hd n
        · exact ⟨_, h1, finished_invariant h2 h3⟩
        · exact ⟨_, h1, raise_invariant _ _ _⟩
      · refine ⟨_, ?_, raise_invariant .invalidArgument none (s.bind a b c)⟩
        simp only [execEncode, startTransaction, hb, hd, h, Bool.false_eq_true, if_false, if_true]
        exact unlessError_of_error rfl _
  · simp [execEncode, startTransaction, hb]

/-! ### The result -/

/-- At DONE the result is whole: `L` bytes, each the one in its cell. -/
theorem done_result {s : State} (hi : Invariant s) (hd : s.seq = .done) :
    ∃ buf, result s = some buf ∧ buf.length = s.L ∧ ∀ off, off < s.L → buf[off]? = s.cell off := by
  obtain ⟨_, _, _, hw⟩ := (seqFields_done hd).1 hi.fields
  have key : ∀ n, n ≤ s.L → ∃ buf, (List.range n).mapM s.cell = some buf ∧ buf.length = n ∧
      ∀ off, off < n → buf[off]? = s.cell off := by
    intro n
    induction n with
    | zero => intro _; exact ⟨[], rfl, rfl, by omega⟩
    | succ n ih =>
      intro h
      obtain ⟨buf, h1, h2, h3⟩ := ih (by omega)
      obtain ⟨b, hb⟩ := Option.isSome_iff_exists.1 ((hw n).2 ⟨by omega, by omega⟩)
      refine ⟨buf ++ [b], ?_, by simp [h2], fun off ho => ?_⟩
      · rw [List.range_succ, List.mapM_append, h1]; simp [hb]
      · by_cases h4 : off < n
        · rw [List.getElem?_append_left (by omega)]; exact h3 off h4
        · obtain rfl : off = n := by omega
          rw [← h2, List.getElem?_concat_length, h2, hb]
  obtain ⟨buf, h1, h2, h3⟩ := key s.L (Nat.le_refl _)
  exact ⟨buf, by simp [result, hd, h1], h2, h3⟩

end Sys2Proof.Machine
end

