-- ==== Sys2Proof/Laws/Output.lean ====
section
/-! SUPPORT. The output byte by byte and bit by bit: which byte of which element stands at an offset (41_encode.md R104
to R108), where each bit of a latch goes (40_datapath.md R80 to R84), and streams given as bytes. -/

namespace Sys2Proof.Machine

/-! ### The pairs of the output -/

/-- Which nibble of an element the sub-group `sg` is. -/
def halfOf (sg : Nat) : Half := if sg % 2 = 0 then .high else .low

/-- The valid-bits nibble of pair `p` of `ENCODE n`. -/
def maskAt (n p : Nat) : Nibble := if p = 0 ∧ n % 4 ≠ 0 then tailMask (n % 4) else 0xF

/-- Pair `p` of `ENCODE n` is the sub-group `P - 1 - p`. -/
def PairIs (n : Nat) (s : State) (p : Nat) : Prop :=
  outByte n s (2 * p) =
      byteOfA (halfOf (ceilDiv n 4 - 1 - p)) (elemByte (s.streamOf .tms) ((ceilDiv n 4 - 1 - p) / 2))
        (elemByte (s.streamOf .tdi) ((ceilDiv n 4 - 1 - p) / 2)) ∧
    outByte n s (2 * p + 1) =
      byteOfB (halfOf (ceilDiv n 4 - 1 - p)) (elemByte (s.streamOf .tdom) ((ceilDiv n 4 - 1 - p) / 2)) (maskAt n p)

theorem pairs_eq (n : Nat) : 2 * ceilDiv n 4 = 4 * (n / 8) + tailOffset n := outLen_eq n

/-- A pair of a full group. -/
theorem pairIs_full {n p : Nat} (s : State) (hT : tailOffset n ≤ 2 * p) (hp : p < ceilDiv n 4)
    (hm : maskAt n p = 0xF) (he : tailOffset n % 2 = 0) : PairIs n s p := by
  have hP := pairs_eq n
  have e1 : n / 8 - 1 - (2 * p - tailOffset n) / 4 = (ceilDiv n 4 - 1 - p) / 2 := by omega
  have e2 : n / 8 - 1 - (2 * p + 1 - tailOffset n) / 4 = (ceilDiv n 4 - 1 - p) / 2 := by omega
  unfold PairIs outByte
  rw [if_neg (by omega), if_neg (by omega), hm]
  unfold groupsByte
  rw [e1, e2]
  by_cases ho : (ceilDiv n 4 - 1 - p) % 2 = 0
  · rw [show (2 * p - tailOffset n) % 4 = 2 by omega, show (2 * p + 1 - tailOffset n) % 4 = 3 by omega]
    simp [halfOf, ho, fullByte]
  · rw [show (2 * p - tailOffset n) % 4 = 0 by omega, show (2 * p + 1 - tailOffset n) % 4 = 1 by omega]
    simp [halfOf, ho, fullByte]

/-- Every pair of the output. -/
theorem pairIs {n p : Nat} (s : State) (hp : p < ceilDiv n 4) : PairIs n s p := by
  have hP := pairs_eq n
  have hmask : p ≠ 0 ∨ n % 4 = 0 → maskAt n p = 0xF := fun h => by unfold maskAt; rw [if_neg (by omega)]
  by_cases h8 : n % 8 = 0
  · have hT := tailOffset_zero h8
    exact pairIs_full s (by omega) hp (hmask (.inr (by omega))) (by omega)
  by_cases hlt : n % 8 < 4
  · have hT := tailOffset_two_part hlt h8
    by_cases hp0 : p = 0
    · subst hp0
      have e0 : ceilDiv n 4 - 1 - 0 = 2 * (n / 8) := by omega
      unfold PairIs outByte
      rw [if_pos (by omega), if_pos (by omega), e0, show 2 * (n / 8) / 2 = n / 8 by omega]
      simp [halfOf, tailByte, hlt, maskAt, show n % 4 ≠ 0 by omega]
    · exact pairIs_full s (by omega) hp (hmask (.inl hp0)) (by omega)
  by_cases h4 : n % 4 = 0
  · have hT := tailOffset_two_full (n := n) (by omega) h4
    by_cases hp0 : p = 0
    · subst hp0
      have e0 : ceilDiv n 4 - 1 - 0 = 2 * (n / 8) := by omega
      unfold PairIs outByte
      rw [if_pos (by omega), if_pos (by omega), e0, show 2 * (n / 8) / 2 = n / 8 by omega]
      simp [halfOf, tailByte, hlt, maskAt, h4]
    · exact pairIs_full s (by omega) hp (hmask (.inl hp0)) (by omega)
  · have hT := tailOffset_four (n := n) (by omega) h4
    by_cases hp0 : p = 0
    · subst hp0
      have e0 : ceilDiv n 4 - 1 - 0 = 2 * (n / 8) + 1 := by omega
      unfold PairIs outByte
      rw [if_pos (by omega), if_pos (by omega), e0, show (2 * (n / 8) + 1) / 2 = n / 8 by omega]
      simp [halfOf, tailByte, hlt, maskAt, h4]
    by_cases hp1 : p = 1
    · subst hp1
      have e0 : ceilDiv n 4 - 1 - 1 = 2 * (n / 8) := by omega
      unfold PairIs outByte
      rw [if_pos (by omega), if_pos (by omega), e0, show (2 * (n / 8)) / 2 = n / 8 by omega]
      simp [halfOf, tailByte, hlt, maskAt, h4]
    · exact pairIs_full s (by omega) hp (hmask (.inl hp0)) (by omega)

/-! ### Bits -/

theorem four_cases {j : Nat} (h : j < 4) : j = 0 ∨ j = 1 ∨ j = 2 ∨ j = 3 := by omega

/-- Bit `j` of each half of the four placements (R81). -/
theorem placed_bits (x : Byte) {j : Nat} (hj : j < 4) :
    ((hiToHigh x).getLsbD (7 - j) = x.getLsbD (7 - j) ∧ (hiToHigh x).getLsbD (3 - j) = false) ∧
    ((hiToLow x).getLsbD (7 - j) = false ∧ (hiToLow x).getLsbD (3 - j) = x.getLsbD (7 - j)) ∧
    ((loToHigh x).getLsbD (7 - j) = x.getLsbD (3 - j) ∧ (loToHigh x).getLsbD (3 - j) = false) ∧
    ((loToLow x).getLsbD (7 - j) = false ∧ (loToLow x).getLsbD (3 - j) = x.getLsbD (3 - j)) := by
  obtain rfl | rfl | rfl | rfl := four_cases hj <;>
    simp [hiToHigh, hiToLow, loToHigh, loToLow]

theorem mask_bits (v : Nibble) {j : Nat} (hj : j < 4) :
    (v.zeroExtend 8 : Byte).getLsbD (7 - j) = false ∧ (v.zeroExtend 8 : Byte).getLsbD (3 - j) = v.getLsbD (3 - j) := by
  obtain rfl | rfl | rfl | rfl := four_cases hj <;> simp

/-- Byte A of a sub-group: its TMS bits above its TDI bits, in cycle order. -/
theorem byteOfA_bits (sg : Nat) {j : Nat} (hj : j < 4) (m d : Byte) :
    (byteOfA (halfOf sg) m d).getLsbD (7 - j) = m.getLsbD (7 - (4 * sg + j) % 8) ∧
    (byteOfA (halfOf sg) m d).getLsbD (3 - j) = d.getLsbD (7 - (4 * sg + j) % 8) := by
  have hm := placed_bits m hj
  have hd := placed_bits d hj
  unfold halfOf
  split
  · simp [byteOfA, hm, hd, show (4 * sg + j) % 8 = j by omega]
  · simp [byteOfA, hm, hd, show 7 - (4 * sg + j) % 8 = 3 - j by omega]

/-- Byte B of a sub-group: its TDO-mask bits, in cycle order, above the valid bits. -/
theorem byteOfB_bits (sg : Nat) {j : Nat} (hj : j < 4) (o : Byte) (v : Nibble) :
    (byteOfB (halfOf sg) o v).getLsbD (7 - j) = o.getLsbD (7 - (4 * sg + j) % 8) ∧
    (byteOfB (halfOf sg) o v).getLsbD (3 - j) = v.getLsbD (3 - j) := by
  have ho := placed_bits o hj
  have hv := mask_bits v hj
  unfold halfOf
  split
  · simp only [byteOfB, BitVec.getLsbD_or, ho, hv, show (4 * sg + j) % 8 = j by omega, Bool.or_false, Bool.false_or,
      and_self]
  · simp only [byteOfB, BitVec.getLsbD_or, ho, hv, show 7 - (4 * sg + j) % 8 = 3 - j by omega, Bool.or_false,
      Bool.false_or, and_self]

theorem append_eq_pack : ∀ x y : Nibble, (x ++ y : Byte) = pack x y := by decide

/-- The nibble of a byte that a half names (R80). -/
def Half.of (h : Half) (x : Byte) : Nibble :=
  match h with
  | .low => lo x
  | .high => hi x

theorem eight_cases {j : Nat} (h : j < 8) :
    j = 0 ∨ j = 1 ∨ j = 2 ∨ j = 3 ∨ j = 4 ∨ j = 5 ∨ j = 6 ∨ j = 7 := by omega

/-- Byte A is the TMS nibble above the TDI nibble, as the encoder has it. -/
theorem byteOfA_eq_append (h : Half) (m d : Byte) : byteOfA h m d = h.of m ++ h.of d := by
  rw [append_eq_pack]
  refine BitVec.eq_of_getLsbD_eq fun j hj => ?_
  obtain rfl | rfl | rfl | rfl | rfl | rfl | rfl | rfl := eight_cases hj <;> cases h <;>
    simp [byteOfA, Half.of, pack, lo, hi, loToHigh, loToLow, hiToHigh, hiToLow]

/-- Byte B is the TDO-mask nibble above the valid bits, as the encoder has it. -/
theorem byteOfB_eq_append (h : Half) (o : Byte) (v : Nibble) : byteOfB h o v = h.of o ++ v := by
  rw [append_eq_pack]
  refine BitVec.eq_of_getLsbD_eq fun j hj => ?_
  obtain rfl | rfl | rfl | rfl | rfl | rfl | rfl | rfl := eight_cases hj <;> cases h <;>
    simp [byteOfB, Half.of, pack, lo, hi, loToHigh, hiToHigh]

/-- The valid bit of a cycle says whether the cycle is below `n`. -/
theorem maskAt_bit {n p j : Nat} (hj : j < 4) (hp : p < ceilDiv n 4) :
    (maskAt n p).getLsbD (3 - j) = decide (4 * (ceilDiv n 4 - 1 - p) + j < n) := by
  have : ceilDiv n 4 = (n + 3) / 4 := rfl
  unfold maskAt
  split
  · have h4 : n % 4 = 1 ∨ n % 4 = 2 ∨ n % 4 = 3 := by omega
    rw [show decide (4 * (ceilDiv n 4 - 1 - p) + j < n) = decide (j < n % 4) from decide_eq_decide.2 (by omega)]
    obtain h4 | h4 | h4 := h4 <;> rw [h4] <;> obtain rfl | rfl | rfl | rfl := four_cases hj <;> decide
  · rw [decide_eq_true (by omega)]
    obtain rfl | rfl | rfl | rfl := four_cases hj <;> decide

/-! ### Streams of bytes -/

theorem elemByte_bytes {st : Stream} {bs : List Byte} {rest : List Int} (h : st.unread = byteElems bs ++ rest)
    {k : Nat} (hk : k < bs.length) : elemByte st k = bs.getD k 0 := by
  have h1 : (byteElems bs).length = bs.length := by simp [byteElems]
  simp only [elemByte, h]
  rw [List.getD_eq_getElem?_getD, List.getElem?_append_left (by omega), List.getD_eq_getElem?_getD]
  simp [byteElems, hk]

theorem streamFits_bytes {st : Stream} {bs : List Byte} {rest : List Int} (h : st.unread = byteElems bs ++ rest) :
    StreamFits bs.length st := by
  refine ⟨by simp [h, byteElems], fun e he => ?_⟩
  rw [h, List.take_left' (by simp [byteElems])] at he
  simp only [byteElems, List.mem_map] at he
  obtain ⟨b, _, rfl⟩ := he
  have := b.isLt
  simp [elemFits]; omega

/-- A caller who keeps its part of the contract has operands that fit. -/
theorem ready_operandsFit {s : State} {n : Nat} {a b c : Cursor} {tms tdi tdom : List Byte}
    (h : Ready s n a b c tms tdi tdom) : OperandsFit (ceilDiv n 8) (started n a b c s) := by
  obtain ⟨_, ha⟩ := h.tms_there
  obtain ⟨_, hb⟩ := h.tdi_there
  obtain ⟨_, hc⟩ := h.tdom_there
  intro g
  cases g
  · rw [← h.tms_length]; exact streamFits_bytes (st := s.streams.get a) ha
  · rw [← h.tdi_length]; exact streamFits_bytes (st := s.streams.get b) hb
  · rw [← h.tdom_length]; exact streamFits_bytes (st := s.streams.get c) hc

/-- The result of a successful transaction, byte by byte. -/
theorem finished_result {s : State} {n : Nat} {a b c : Cursor} {mem : Memory} (hwf : mem.wf = true)
    (hm : ∀ x, mem.read x = if x < outLen n then some (outByte n (started n a b c s) x) else none) :
    ∃ buf, result (finished n (started n a b c s) mem) = some buf ∧ buf.length = outLen n ∧
      ∀ x, x < outLen n → buf.getD x 0 = outByte n (started n a b c s) x := by
  obtain ⟨buf, h1, h2, h3⟩ := done_result (finished_invariant hwf hm) rfl
  rw [show (finished n (started n a b c s) mem).L = outLen n from rfl] at h2 h3
  refine ⟨buf, h1, h2, fun x hx => ?_⟩
  rw [List.getD_eq_getElem?_getD, h3 x hx]
  show (mem.read x).getD 0 = _
  rw [hm, if_pos hx]; rfl

/-! ### A buffer's pairs -/

theorem isValidBits_iff (v : Nibble) : IsValidBits v ↔ (cyclesOf v).isSome = true := by
  unfold IsValidBits; revert v; decide

/-- All that splitting a buffer into its pairs can give. -/
theorem pairsOf_cases : ∀ buf : List Byte, (buf.length % 2 = 1 ∧ pairsOf buf = .error .oddLength) ∨
    (buf.length % 2 = 0 ∧ ∃ ps, pairsOf buf = .ok ps ∧ buf.length = 2 * ps.length ∧
      ∀ p (h : p < ps.length), lowNibble ps[p].2 = validAt buf p)
  | [] => .inr ⟨rfl, [], rfl, rfl, by simp⟩
  | [_] => .inl ⟨rfl, rfl⟩
  | a :: b :: rest => by
    obtain ⟨h, h'⟩ | ⟨h, ps, h1, h2, h3⟩ := pairsOf_cases rest
    · exact .inl ⟨by simp; omega, by simp [pairsOf, h']⟩
    · refine .inr ⟨by simp; omega, (a, b) :: ps, by simp [pairsOf, h1], by simp; omega, fun p hp => ?_⟩
      cases p with
      | zero => rfl
      | succ p =>
        simp only [List.length_cons, Nat.add_lt_add_iff_right] at hp
        simp only [List.getElem_cons_succ, h3 p hp]
        unfold validAt
        rw [show 2 * (p + 1) + 1 = 2 * p + 1 + 1 + 1 by omega]
        simp

end Sys2Proof.Machine
end

