-- ==== Sys2Proof/Laws/PerInstr.lean ====
section
/-! SUPPORT. Statements made instruction by instruction. `TableRow`: an operation's row of spec/opcode_table.json. -/

namespace Sys2Proof.Laws.TableRow

/-- What a row of the table says of an operation: a pair operation whose row has the match value `m` in bits 3..0
writes, for any nibbles, the 16 bits `MMMMDDDDOOOOmmmm` (30_encoding.md R62, R64) and has no command; ENCODE has no bits
and its command is itself (R68). Every pair operation is well formed. -/
def Row (m : Option Nibble) (i : Instr) : Prop :=
  match m with
  | none => (∀ x y z, Sys2Proof.encode i x y z = none) ∧ (encodeCommand i).map decodeCommand = some i
  | some v => (∀ x y z, Sys2Proof.encode i x y z = some [x ++ y, z ++ v]) ∧ encodeCommand i = none ∧ i.wf = true

/-- The match values of spec/opcode_table.json. -/
def matchValue : Instr → Option Nibble
  | .encode _ _ _ _ => none
  | .fullLo => some 0b1111
  | .fullHi => some 0b1111
  | .tailFullHi => some 0b1111
  | .tailPartLo1 => some 0b1000
  | .tailPartLo2 => some 0b1100
  | .tailPartLo3 => some 0b1110
  | .tailPartHi1 => some 0b1000
  | .tailPartHi2 => some 0b1100
  | .tailPartHi3 => some 0b1110

/-- The operation's encoding is its row's. -/
def Statement (i : Instr) : Prop := Row (matchValue i) i

theorem encode (count : Int) (a b c : Cursor) : Statement (.encode count a b c) := ⟨fun _ _ _ => rfl, rfl⟩
theorem fullLo : Statement .fullLo := ⟨fun _ _ _ => rfl, rfl, rfl⟩
theorem fullHi : Statement .fullHi := ⟨fun _ _ _ => rfl, rfl, rfl⟩
theorem tailFullHi : Statement .tailFullHi := ⟨fun _ _ _ => rfl, rfl, rfl⟩
theorem tailPartLo1 : Statement .tailPartLo1 := ⟨fun _ _ _ => rfl, rfl, rfl⟩
theorem tailPartLo2 : Statement .tailPartLo2 := ⟨fun _ _ _ => rfl, rfl, rfl⟩
theorem tailPartLo3 : Statement .tailPartLo3 := ⟨fun _ _ _ => rfl, rfl, rfl⟩
theorem tailPartHi1 : Statement .tailPartHi1 := ⟨fun _ _ _ => rfl, rfl, rfl⟩
theorem tailPartHi2 : Statement .tailPartHi2 := ⟨fun _ _ _ => rfl, rfl, rfl⟩
theorem tailPartHi3 : Statement .tailPartHi3 := ⟨fun _ _ _ => rfl, rfl, rfl⟩

end Sys2Proof.Laws.TableRow
end

