-- ==== Sys2Proof/Tests/Slice0.lean ====
section
/-! SUPPORT. The model's own tests. Expected values are those of spec/95_test_vectors.md (V, E and program numbers) or
worked by hand from the formulas of spec/40_datapath.md. The last part shows, for each statement with hypotheses, a
concrete state and operands that meet them. -/

namespace Sys2Proof.Tests

open Sys2Proof.Machine

/-! ### Helpers -/

/-- A caller with three streams and a schedule, after reset. -/
def caller (tms tdi tdom : List Int) (l : List Turn) : State :=
  { State.reset with streams := ⟨⟨[], tms⟩, ⟨[], tdi⟩, ⟨[], tdom⟩⟩, schedule := l }

/-- The streams of V10. -/
def v10 (l : List Turn) : State := caller [0xA5, 0x3C, 0xE1] [0x96, 0x0F, 0x7B] [0xFF, 0x81, 0x5A] l

def straight (n : Int) : Command := ⟨n, .c0, .c1, .c2⟩

/-- ENCODE on the three cursors in order. -/
def encoded (n : Int) (s : State) : Result := exec (.encode n .c0 .c1 .c2) s

def buffer : Result → Option (List Byte)
  | .next s => result s
  | .fault _ => none
  | .refused _ => none

def status : Result → Option (BitVec 2 × BitVec 2)
  | .next s => some (statusState s.seq, s.err)
  | .fault _ => none
  | .refused _ => none

def positions : Result → Option (Nat × Nat × Nat)
  | .next s => some (s.streams.c0.pos, s.streams.c1.pos, s.streams.c2.pos)
  | .fault _ => none
  | .refused _ => none

/-- A state with the latches loaded and a buffer of `L` unwritten cells. -/
def latched (m d o : Byte) (T i r4 L : Nat) : State :=
  { State.reset with m := m, d := d, o := o, T := T, i := i, r4 := r4, L := L, obuf := some [] }

/-- The cells a pair operation wrote. -/
def cells : Result → Option Memory
  | .next s => s.obuf
  | .fault _ => none
  | .refused _ => none

/-! ### WellFormed: what a command port cannot carry is refused -/

theorem test_wf_accepts : (Instr.encode 16 .c2 .c0 .c1).wf = true := by decide
theorem test_wf_refuses_shared_tms_tdi : (Instr.encode 16 .c0 .c0 .c1).wf = false := by decide
theorem test_wf_refuses_shared_tms_tdom : (Instr.encode 16 .c0 .c1 .c0).wf = false := by decide
theorem test_wf_refuses_shared_tdi_tdom : (Instr.encode 16 .c0 .c1 .c1).wf = false := by decide
theorem test_wf_refuses_negative_count : (Instr.encode (-1) .c0 .c1 .c2).wf = false := by decide
theorem test_wf_refuses_wide_count :
    (Instr.encode 256 .c0 .c1 .c2).wfAt (some 8) = false ∧ (Instr.encode 255 .c0 .c1 .c2).wfAt (some 8) = true := by
  decide

/-! ### Decoding: the pairs of 95_test_vectors.md, at their places -/

theorem test_decode_fullLo : decodeAt 8 0 [0x20, 0xFF] = .ok (.fullLo, []) := by decide
theorem test_decode_fullHi : decodeAt 8 1 [0xBF, 0xFF, 0x01] = .ok (.fullHi, [0x01]) := by decide
theorem test_decode_tailFullHi : decodeAt 4 0 [0x0F, 0xFF] = .ok (.tailFullHi, []) := by decide
theorem test_decode_tailPartLo1 : decodeAt 5 0 [0x56, 0xF8] = .ok (.tailPartLo1, []) := by decide
theorem test_decode_tailPartLo2 : decodeAt 6 0 [0x56, 0xFC] = .ok (.tailPartLo2, []) := by decide
theorem test_decode_tailPartLo3 : decodeAt 7 0 [0x56, 0xFE] = .ok (.tailPartLo3, []) := by decide
theorem test_decode_tailPartHi1 : decodeAt 1 0 [0xA9, 0xF8] = .ok (.tailPartHi1, []) := by decide
theorem test_decode_tailPartHi2 : decodeAt 2 0 [0xA9, 0xFC] = .ok (.tailPartHi2, []) := by decide
theorem test_decode_tailPartHi3 : decodeAt 3 0 [0x00, 0x0E] = .ok (.tailPartHi3, []) := by decide
theorem test_decode_tail_then_groups : decodeAt 13 1 [0x30, 0x8F] = .ok (.tailFullHi, []) ∧
    decodeAt 13 2 [0x56, 0xFF] = .ok (.fullLo, []) := by decide
theorem test_decode_command : decodeCommand (straight 16) = .encode 16 .c0 .c1 .c2 := by decide
theorem test_decode_refuses_wrong_valid_bits : decodeAt 5 0 [0x56, 0xFC] = .error .wrongValidBits := by decide
theorem test_decode_refuses_no_pair : decodeAt 8 2 [0x20, 0xFF] = .error .noPair := by decide
theorem test_decode_refuses_truncated : decodeAt 8 0 [0x20] = .error .truncated := by decide

/-- V3: the buffer of V2 decodes to the first 10 bits of its streams. -/
theorem test_decode_V3 : decodeBuffer [0x0A, 0x0C, 0x20, 0xFF, 0xBF, 0xFF] = .ok
    { count := 10, ops := [.tailPartHi2, .fullLo, .fullHi]
      tms := [true, false, true, true, false, false, true, false, false, false]
      tdi := [true, true, true, true, false, false, false, false, true, false]
      tdom := [true, true, true, true, true, true, true, true, false, false] } := by decide
theorem test_decode_refuses_zero_valid : decodeBuffer [0x00, 0x00] = .error .neverProduced := by decide
theorem test_decode_refuses_late_partial :
    decodeBuffer [0x00, 0x0F, 0x00, 0x0C] = .error .partialNotFirst := by decide
theorem test_tableWord : decodeTableWord 16 0xA9F8 = some .tailPartHi1 ∧ decodeTableWord 16 0x0FFF = some .tailFullHi ∧
    decodeTableWord 16 0xA9F5 = none := by decide

/-- The table's own patterns, any data bits: `MMMMDDDDOOOO1110`. -/
theorem test_encode_word : encode .tailPartHi3 0xA 0x9 0xF = some [0xA9, 0xFE] ∧
    encode .fullLo 0x2 0x0 0xF = some [0x20, 0xFF] := by decide

/-! ### Pair operations (the table of 95_test_vectors.md) -/

theorem test_fullLo : cells (exec .fullLo (latched 0xB2 0xF0 0xFF 2 1 0 10)) = some [(6, 0x20), (7, 0xFF)] := by decide
theorem test_fullHi : cells (exec .fullHi (latched 0xB2 0xF0 0xFF 2 1 0 10)) = some [(8, 0xBF), (9, 0xFF)] := by decide
theorem test_tailFullHi_first : cells (exec .tailFullHi (latched 0x00 0xFF 0xF0 2 0 0 2)) = some [(0, 0x0F), (1, 0xFF)] := by
  decide
theorem test_tailFullHi_second : cells (exec .tailFullHi (latched 0xA5 0x96 0xFF 4 0 1 4)) = some [(2, 0xA9), (3, 0xFF)] := by
  decide
theorem test_tailPartLo1 : cells (exec .tailPartLo1 (latched 0xA5 0x96 0xFF 4 0 1 4)) = some [(0, 0x56), (1, 0xF8)] := by
  decide
theorem test_tailPartLo2 : cells (exec .tailPartLo2 (latched 0xA5 0x96 0xFF 4 0 2 4)) = some [(0, 0x56), (1, 0xFC)] := by
  decide
theorem test_tailPartLo3 : cells (exec .tailPartLo3 (latched 0xA5 0x96 0xFF 4 0 3 4)) = some [(0, 0x56), (1, 0xFE)] := by
  decide
theorem test_tailPartHi1 : cells (exec .tailPartHi1 (latched 0xA5 0x96 0xFF 2 0 1 2)) = some [(0, 0xA9), (1, 0xF8)] := by
  decide
theorem test_tailPartHi2 : cells (exec .tailPartHi2 (latched 0xA5 0x96 0xFF 2 0 2 2)) = some [(0, 0xA9), (1, 0xFC)] := by
  decide
theorem test_tailPartHi3 : cells (exec .tailPartHi3 (latched 0x00 0x00 0x00 2 0 3 2)) = some [(0, 0x00), (1, 0x0E)] := by
  decide
theorem test_no_mask_for_zero : vmask 0 = none ∧ vmask 5 = none := by decide

/-! ### ENCODE -/

theorem test_encode_V1 : buffer (encoded 16 (caller [0xB2, 0x0F] [0xF0, 0xAA] [0xFF, 0x00] []))
    = some [0xFA, 0x0F, 0x0A, 0x0F, 0x20, 0xFF, 0xBF, 0xFF] := by decide
theorem test_encode_V10_row_21 : buffer (encoded 21 (v10 []))
    = some [0x1B, 0xA8, 0xE7, 0x5F, 0xCF, 0x1F, 0x30, 0x8F, 0x56, 0xFF, 0xA9, 0xFF] := by decide

/-- E1: the tail step's TMS read is past the end. -/
theorem test_error_E1 : status (encoded 9 (caller [0x12] [0x34, 0x56] [0x78, 0x9A] [])) = some (3, 2) := by decide
theorem test_error_E2 : status (encoded 8 (caller [0x12] [] [0x78] [])) = some (3, 2) := by decide
theorem test_zero_E3 : buffer (encoded 0 (caller [] [] [] [])) = some [] := by decide
theorem test_unread_E4 : positions (encoded 8 (caller [0x12, 0x99] [0x34, 0x99] [0x78, 0x99] [])) = some (1, 1, 1) := by
  decide
theorem test_error_E5 : status (encoded 8 (caller [0x100] [0] [0] [])) = some (3, 1) := by decide
/-- R131, R132: InvalidArgument records its code only; InputExhausted may record the stream. -/
theorem test_error_records :
    (match encoded 8 (caller [0x12] [0x100] [0] []) with | .next t => some t.errStream | _ => some (some .tms)) = some none ∧
    (match encoded 8 (caller [0x12] [] [0x78] []) with | .next t => t.errStream | _ => none) = some .tdi := by decide
theorem test_error_E6 : status (encoded (-1) (v10 [])) = some (3, 1) := by decide

/-- Program 2: the second transaction's operands come from other cursors than cycle order would suggest: TMS from `c2`. -/
theorem test_operands_are_bound_by_the_command :
    buffer (exec (.encode 5 .c2 .c0 .c1) (caller [0x3A] [0xF0] [0xC8] [])) = some [0x8A, 0x08, 0xC3, 0xFF] := by decide

/-! ### Steps -/

/-- V11, step 1: FULL with `i = 1`. -/
theorem test_step_V11 : cells (step (started 20 .c0 .c1 .c2 (caller [0x12, 0x34] [0x78, 0x9A] [0xDE, 0xF0] [])))
    = some [(6, 0x28), (7, 0xEF), (8, 0x17), (9, 0xDF)] := by decide
/-- V11's first tail word read as a whole buffer: a table word runs as the next step. -/
theorem test_step_runs_a_table_word : buffer (step (State.reset.withFetchWord 16 0x5B1F)) = some [0x5B, 0x1F] := by
  decide
theorem test_step_outside_a_transaction_waits : status (step State.reset) = some (0, 0) := by decide
theorem test_step_start_while_busy :
    step (started 8 .c0 .c1 .c2 (v10 [.start (straight 1)])) = .fault .startWhileBusy := by rfl

/-- R51: after V11's first step both cursors and buffer have moved, and the caller sees only that the block is BUSY. -/
theorem test_busy_shows_nothing :
    (match step (started 20 .c0 .c1 .c2 (caller [0x12, 0x34] [0x78, 0x9A] [0xDE, 0xF0] [])) with
      | .next t => some (observe t, t.streams.c0.pos)
      | _ => none) = some (⟨1, 0, none, none⟩, 1) := by decide
/-- V9, at DONE: the result and the cursors are seen. -/
theorem test_done_shows_the_result :
    (match encoded 4 (caller [0x00] [0xFF] [0xF0] []) with
      | .next t => some (observe t)
      | _ => none) = some ⟨2, 0, some [0x0F, 0xFF], some (1, 1, 1)⟩ := by decide

/-! ### Witnesses: states that meet the hypotheses of the statements -/

/-- A transaction of `n` on the streams of V10, just started, with a schedule. -/
def begun (n : Nat) (l : List Turn) : State := started n .c0 .c1 .c2 (v10 l)

/-- A transaction at DONE with its two bytes (V9). -/
def atDone (l : List Turn) : State :=
  { v10 l with seq := .done, cnt := 4, r := 4, T := 2, L := 2, obuf := some [(0, 0x0F), (1, 0xFF)] }

theorem begun_invariant (n : Nat) (l : List Turn) : Invariant (begun n l) := started_invariant rfl n

theorem atDone_invariant (l : List Turn) : Invariant (atDone l) := by
  have hr : CountRegs (atDone l) := by constructor <;> simp [atDone, v10, caller, State.reset, tailOffset, outLen, ceilDiv]
  refine ⟨(seqFields_done rfl).2 ⟨rfl, rfl, hr, fun a => ?_⟩, fun _ h => (by cases h; rfl),
    fun h => (by cases h)⟩
  match a with
  | 0 => simp [State.cell, atDone, Memory.read]
  | 1 => simp [State.cell, atDone, Memory.read]
  | a + 2 => simp [State.cell, atDone, Memory.read]

theorem atError_invariant (l : List Turn) : Invariant (raise .inputExhausted (some .tms) (v10 l)) :=
  raise_invariant _ _ _

/-- EveryStepKeepsTheInvariant, from FULL, TAIL, DONE and ERROR. -/
theorem test_witness_step_from_full : Invariant (begun 20 []) ∧ ∃ t, step (begun 20 []) = .next t :=
  ⟨begun_invariant _ _, _, rfl⟩
theorem test_witness_step_from_tail : Invariant (begun 5 []) ∧ ∃ t, step (begun 5 []) = .next t :=
  ⟨begun_invariant _ _, _, rfl⟩
theorem test_witness_step_from_done :
    Invariant (atDone [.call (straight 9)]) ∧ ∃ t, step (atDone [.call (straight 9)]) = .next t :=
  ⟨atDone_invariant _, _, rfl⟩
theorem test_witness_step_from_error :
    Invariant (raise .inputExhausted (some .tms) (v10 [.start (straight 9)])) ∧
      ∃ t, step (raise .inputExhausted (some .tms) (v10 [.start (straight 9)])) = .next t :=
  ⟨atError_invariant _, _, rfl⟩

/-- EncoderTurnAlwaysProgresses: BUSY with an empty schedule and with an encoder's turn in it; and not BUSY. -/
theorem test_witness_encoder_turn :
    (Invariant (begun 20 []) ∧ EncoderActs (begun 20 []) (begun 20 []) ∧ (begun 20 []).busy = true) ∧
    (Invariant (begun 5 [.encoder]) ∧ EncoderActs (begun 5 [.encoder]) (begun 5 []) ∧
      (begun 5 [.encoder]).busy = true) ∧
    (Invariant (atDone []) ∧ EncoderActs (atDone []) (atDone []) ∧ (atDone []).busy = false) :=
  ⟨⟨begun_invariant _ _, .inl ⟨rfl, rfl⟩, rfl⟩, ⟨begun_invariant _ _, .inr ⟨[], rfl, rfl⟩, rfl⟩,
    ⟨atDone_invariant _, .inl ⟨rfl, rfl⟩, rfl⟩⟩

/-- StopsAreTheCallersDoing: each stop it allows is met from a state with the invariant. -/
theorem test_witness_caller_faults :
    (Invariant (begun 8 [.start (straight 1)]) ∧ step (begun 8 [.start (straight 1)]) = .fault .startWhileBusy) ∧
    (Invariant (begun 8 [.readCell 0]) ∧ step (begun 8 [.readCell 0]) = .fault .noResult) ∧
    (Invariant (atDone [.readCell 2]) ∧ step (atDone [.readCell 2]) = .fault .readOutOfRange) :=
  ⟨⟨begun_invariant _ _, rfl⟩, ⟨begun_invariant _ _, rfl⟩, ⟨atDone_invariant _, rfl⟩⟩
theorem test_witness_caller_refusals :
    (Invariant (atDone [.call ⟨1, .c0, .c0, .c1⟩]) ∧
      step (atDone [.call ⟨1, .c0, .c0, .c1⟩]) = .refused .sharedCursors) ∧
    (Invariant (begun 8 [.setStream .c0 Stream.empty]) ∧
      step (begun 8 [.setStream .c0 Stream.empty]) = .refused .streamTouched) :=
  ⟨⟨atDone_invariant _, rfl⟩, ⟨begun_invariant _ _, rfl⟩⟩

/-- The hypotheses of the pair operations' statements, each at the last place in its buffer. -/
theorem test_witness_full_cells :
    fullLoBase (latched 0xB2 0xF0 0xFF 2 1 0 8) + 1 < 8 ∧ fullHiBase (latched 0xB2 0xF0 0xFF 2 1 0 10) + 1 < 10 ∧
    tailFullHiBase (latched 0xA5 0x96 0xFF 4 0 1 4) + 1 < 4 ∧ Memory.read [] 3 = none := by decide
theorem test_witness_part_cells : (latched 0xA5 0x96 0xFF 2 0 1 2).obuf = some [] ∧
    0 + 1 < (latched 0xA5 0x96 0xFF 2 0 1 2).L ∧ Memory.read [] 0 = none ∧ Memory.read [] 1 = none := by decide
theorem test_witness_pair_base : pairBase (latched 0 0 0 2 1 0 10) .fullHi = some 8 ∧
    pairBase (latched 0 0 0 4 0 1 4) .tailFullHi = some 2 ∧ pairBase State.reset .tailPartLo1 = some 0 := by decide

/-- MemWriteFaultsOffFreeCells, each clause: no buffer; the first offset out of bounds; a written cell; the last cell,
free. -/
theorem test_witness_memWrite : State.reset.obuf = none ∧ (latched 0 0 0 0 0 0 4).obuf = some [] ∧
    (latched 0 0 0 0 0 0 4).L ≤ 4 ∧ 3 < (latched 0 0 0 0 0 0 4).L ∧ Memory.read [] 3 = none ∧
    Memory.read [(3, 7)] 3 ≠ none := by decide

/-- StreamReadTakesTheNextElement, each clause: the end; either side of the range; both ends of the range. -/
theorem test_witness_streamRead : ((caller [] [256] [0] []).streamOf .tms).unread = [] ∧
    ((caller [] [256] [0] []).streamOf .tdi).unread = 256 :: [] ∧ ¬((0 : Int) ≤ 256 ∧ (256 : Int) ≤ 255) ∧
    ((caller [] [-1] [255] []).streamOf .tdi).unread = -1 :: [] ∧ ¬((0 : Int) ≤ -1 ∧ (-1 : Int) ≤ 255) ∧
    ((caller [] [256] [0] []).streamOf .tdom).unread = 0 :: [] ∧ ((0 : Int) ≤ 0 ∧ (0 : Int) ≤ 255) ∧
    ((caller [] [-1] [255] []).streamOf .tdom).unread = 255 :: [] ∧ ((0 : Int) ≤ 255 ∧ (255 : Int) ≤ 255) := by
  decide

/-- A transaction of `n` with nothing on TDI and `e` on TMS. -/
def starved (n : Nat) (e : Int) : State := started n .c0 .c1 .c2 (caller [e] [] [0x78] [])

/-- ErrorEndsTheTransaction: either error, in FULL and in TAIL. -/
theorem test_witness_error :
    (Invariant (starved 8 0x12) ∧ EncoderActs (starved 8 0x12) (starved 8 0x12) ∧ (starved 8 0x12).busy = true ∧
      groupError (starved 8 0x12) = some .inputExhausted) ∧
    (Invariant (starved 3 0x100) ∧ EncoderActs (starved 3 0x100) (starved 3 0x100) ∧ (starved 3 0x100).busy = true ∧
      groupError (starved 3 0x100) = some .invalidArgument) :=
  ⟨⟨started_invariant rfl 8, .inl ⟨rfl, rfl⟩, rfl, rfl⟩, ⟨started_invariant rfl 3, .inl ⟨rfl, rfl⟩, rfl, rfl⟩⟩

theorem test_witness_negative : (v10 []).busy = false ∧ cursorsDistinct .c0 .c1 .c2 = true ∧ (-1 : Int) < 0 := by
  decide
theorem test_witness_busy_start : (begun 8 [.start (straight 1)]).busy = true ∧
    (begun 8 [.start (straight 1)]).schedule = .start (straight 1) :: [] := ⟨rfl, rfl⟩
theorem test_witness_shared : (v10 []).busy = false ∧ cursorsDistinct .c0 .c1 .c1 = false ∧
    (begun 3 [.setStream .c1 Stream.empty]).busy = true ∧
    (begun 3 [.setStream .c1 Stream.empty]).schedule = .setStream .c1 Stream.empty :: [] := ⟨rfl, rfl, rfl, rfl⟩
theorem test_witness_reset : ((begun 8 [.reset]).schedule = .reset :: [] ∧ (begun 8 [.reset]).busy = true) ∧
    ((atDone [.reset, .encoder]).schedule = .reset :: [.encoder] ∧ (atDone [.reset, .encoder]).busy = false) :=
  ⟨⟨rfl, rfl⟩, ⟨rfl, rfl⟩⟩

/-- ResultIsReadWholeAndOnlyAtDone, each clause: not DONE; the first offset out of range; the last cell. -/
theorem test_witness_read : (Invariant (begun 8 [.readCell 0]) ∧ (begun 8 [.readCell 0]).seq ≠ .done) ∧
    (Invariant (atDone [.readCell 2]) ∧ (atDone [.readCell 2]).seq = .done ∧ (atDone [.readCell 2]).L ≤ 2) ∧
    (Invariant (atDone [.readCell 1]) ∧ (atDone [.readCell 1]).seq = .done ∧ 1 < (atDone [.readCell 1]).L) :=
  ⟨⟨begun_invariant _ _, by decide⟩, ⟨atDone_invariant _, rfl, by decide⟩, ⟨atDone_invariant _, rfl, by decide⟩⟩

/-- ResultIsHeldUntilTheNextStart: a caller that reads its result, and a new stream at DONE. -/
theorem test_witness_held : (atDone [.setStream .c0 Stream.empty]).busy = false ∧
    (∃ t, step (atDone [.setStream .c0 Stream.empty]) = .next t) ∧
    (∀ c, (atDone [.setStream .c0 Stream.empty]).schedule.head? ≠ some (.start c)) ∧
    (∀ c, (atDone [.setStream .c0 Stream.empty]).schedule.head? ≠ some (.call c)) ∧
    (atDone [.setStream .c0 Stream.empty]).schedule.head? ≠ some .reset :=
  ⟨rfl, ⟨_, rfl⟩, fun c h => (by cases h), fun c h => (by cases h), fun h => (by cases h)⟩

/-- AcceptedStartLatchesTheCount: from IDLE, from DONE and from ERROR. -/
theorem test_witness_start : ((v10 [.start (straight 0)]).busy = false ∧ (straight 0).count = ((0 : Nat) : Int)) ∧
    ((atDone [.start (straight 12)]).busy = false ∧ (straight 12).count = ((12 : Nat) : Int)) ∧
    (raise .invalidArgument none (v10 [.start (straight 7)])).busy = false ∧
    cursorsDistinct (straight 7).tms (straight 7).tdi (straight 7).tdom = true := ⟨⟨rfl, rfl⟩, ⟨rfl, rfl⟩, rfl, rfl⟩

/-- StepRunsTheSelectedOperations, each clause. -/
theorem test_witness_selected : (v10 [.call (straight 9)]).schedule = .call (straight 9) :: [] ∧
    (EncoderActs (begun 20 []) (begun 20 []) ∧ (begun 20 []).seq = .full ∧
      ∃ s1, readGroup (begun 20 []) = .ok s1) ∧
    (EncoderActs (begun 7 []) (begun 7 []) ∧ (begun 7 []).seq = .tail ∧ (∃ s1, readGroup (begun 7 []) = .ok s1) ∧
      tailOps (begun 7 []).r (begun 7 []).r4 = some [.tailFullHi, .tailPartLo3]) :=
  ⟨rfl, ⟨.inl ⟨rfl, rfl⟩, rfl, _, rfl⟩, ⟨.inl ⟨rfl, rfl⟩, rfl, ⟨_, rfl⟩, rfl⟩⟩

/-- FullStepWritesItsGroup: more groups to come; the last one with a tail; the last one without. -/
theorem test_witness_full_step : (Invariant (begun 16 []) ∧ EncoderActs (begun 16 []) (begun 16 []) ∧
      (begun 16 []).seq = .full ∧ groupError (begun 16 []) = none ∧ 0 < (begun 16 []).i) ∧
    (Invariant (begun 9 []) ∧ EncoderActs (begun 9 []) (begun 9 []) ∧ (begun 9 []).seq = .full ∧
      groupError (begun 9 []) = none ∧ (begun 9 []).i = 0 ∧ (begun 9 []).r ≠ 0) ∧
    (Invariant (begun 8 []) ∧ EncoderActs (begun 8 []) (begun 8 []) ∧ (begun 8 []).seq = .full ∧
      groupError (begun 8 []) = none ∧ (begun 8 []).i = 0 ∧ (begun 8 []).r = 0) :=
  ⟨⟨begun_invariant _ _, .inl ⟨rfl, rfl⟩, rfl, rfl, by decide⟩,
    ⟨begun_invariant _ _, .inl ⟨rfl, rfl⟩, rfl, rfl, rfl, by decide⟩,
    ⟨begun_invariant _ _, .inl ⟨rfl, rfl⟩, rfl, rfl, rfl, rfl⟩⟩

/-- TailStepWritesTheTail: `r` at both ends of each clause. -/
theorem test_witness_tail_step : ∀ n ∈ [1, 3, 4, 5, 7], Invariant (begun n []) ∧
    EncoderActs (begun n []) (begun n []) ∧ (begun n []).seq = .tail ∧ groupError (begun n []) = none ∧
    (begun n []).r = n := by
  intro n h
  refine ⟨begun_invariant _ _, .inl ⟨rfl, rfl⟩, ?_⟩
  revert n
  decide

/-- TailOffsetByRemainder: remainders at both ends of each clause. -/
theorem test_witness_remainders : 8 % 8 = 0 ∧ 1 ≤ 9 % 8 ∧ 9 % 8 ≤ 4 ∧ 12 % 8 = 4 ∧ 5 ≤ 13 % 8 ∧ 5 ≤ 15 % 8 := by decide

theorem test_witness_ends : Invariant (begun 20 [.encoder, .encoder, .encoder, .readStatus]) ∧
    (begun 20 [.encoder, .encoder, .encoder, .readStatus]).busy = true ∧
    (begun 20 [.encoder, .encoder, .encoder, .readStatus]).schedule =
      List.replicate (stepsLeft (begun 20 [.encoder, .encoder, .encoder, .readStatus])) .encoder ++ [.readStatus] :=
  ⟨begun_invariant _ _, rfl, rfl⟩

/-- What the statements about a successful ENCODE ask of the caller: no group, a tail alone, groups and a tail. -/
theorem test_witness_ready_zero : Ready (caller [] [] [] []) 0 .c0 .c1 .c2 [] [] [] :=
  ⟨rfl, rfl, rfl, rfl, rfl, ⟨_, rfl⟩, ⟨_, rfl⟩, ⟨_, rfl⟩⟩
theorem test_witness_ready_tail : Ready (v10 []) 1 .c2 .c0 .c1 [0xFF] [0xA5] [0x96] :=
  ⟨rfl, rfl, rfl, rfl, rfl, ⟨_, rfl⟩, ⟨_, rfl⟩, ⟨_, rfl⟩⟩
theorem test_witness_ready_groups :
    Ready (atDone []) 21 .c0 .c1 .c2 [0xA5, 0x3C, 0xE1] [0x96, 0x0F, 0x7B] [0xFF, 0x81, 0x5A] :=
  ⟨rfl, rfl, rfl, rfl, rfl, ⟨_, rfl⟩, ⟨_, rfl⟩, ⟨_, rfl⟩⟩

/-- EncodeConsumesExactlyItsElements and EncodeChangesOnlyItsRegisters: success with elements and without, and an
error. -/
theorem test_witness_success : (∃ t, encoded 9 (v10 []) = .next t ∧ t.seq = .done) ∧
    (∃ t, encoded 0 (v10 []) = .next t ∧ t.seq = .done) ∧ (∃ t, encoded 25 (v10 []) = .next t ∧ t.seq = .error) :=
  ⟨⟨_, rfl, rfl⟩, ⟨_, rfl, rfl⟩, ⟨_, rfl, rfl⟩⟩

/-- EncodeZeroDeliversNothing and EncodeSucceedsExactlyOnFullStreams: streams too short for a count are a case too. -/
theorem test_witness_call : (v10 []).busy = false ∧ cursorsDistinct .c0 .c1 .c2 = true ∧
    status (encoded 25 (v10 [])) = some (3, 2) ∧ ∀ e ∈ ((v10 []).streams.get .c0).unread, 0 ≤ e ∧ e ≤ 255 := by decide

/-- SequencerAgreesWithAtomicEncode. -/
theorem test_witness_sequencer : (v10 [.start (straight 9), .encoder, .encoder, .readStatus]).schedule =
    .start (straight 9) :: (List.replicate (ceilDiv (straight 9).count.toNat 8) .encoder ++ [.readStatus]) := rfl

/-- BitsBeyondCountChangeNoValidBit (V6, count 1): the streams differ beyond the count only. -/
theorem test_witness_beyond : Ready (caller [0x80] [0x00] [0x80] []) 1 .c0 .c1 .c2 [0x80] [0x00] [0x80] ∧
    Ready (caller [0xFF] [0x7F] [0xFF] []) 1 .c0 .c1 .c2 [0xFF] [0x7F] [0xFF] ∧
    ∀ x, x < 1 → cycleBit [0x80] x = cycleBit [0xFF] x ∧ cycleBit [0x00] x = cycleBit [0x7F] x ∧
      cycleBit [0x80] x = cycleBit [0xFF] x :=
  ⟨⟨rfl, rfl, rfl, rfl, rfl, ⟨_, rfl⟩, ⟨_, rfl⟩, ⟨_, rfl⟩⟩, ⟨rfl, rfl, rfl, rfl, rfl, ⟨_, rfl⟩, ⟨_, rfl⟩, ⟨_, rfl⟩⟩,
    by decide⟩

/-- SameInputGivesSameOutput: a fresh block and one with an earlier result, on other cursors. -/
theorem test_witness_same_input : Ready (v10 []) 9 .c0 .c1 .c2 [0xA5, 0x3C] [0x96, 0x0F] [0xFF, 0x81] ∧
    Ready { atDone [] with streams := ⟨⟨[7], [0x96, 0x0F]⟩, ⟨[], [0xFF, 0x81]⟩, ⟨[], [0xA5, 0x3C, 1]⟩⟩ } 9 .c2 .c0 .c1
      [0xA5, 0x3C] [0x96, 0x0F] [0xFF, 0x81] :=
  ⟨⟨rfl, rfl, rfl, rfl, rfl, ⟨_, rfl⟩, ⟨_, rfl⟩, ⟨_, rfl⟩⟩, ⟨rfl, rfl, rfl, rfl, rfl, ⟨_, rfl⟩, ⟨_, rfl⟩, ⟨_, rfl⟩⟩⟩

/-- EarlierStateCannotBeSeen: a fresh block and one with an earlier result. -/
theorem test_witness_earlier : (v10 [.start (straight 9)]).busy = false ∧
    (atDone [.start (straight 9)]).busy = false ∧
    (atDone [.start (straight 9)]).streams = (v10 [.start (straight 9)]).streams ∧
    (atDone [.start (straight 9)]).draws = (v10 [.start (straight 9)]).draws ∧
    (atDone [.start (straight 9)]).schedule = .start (straight 9) :: [] ∧
    (atDone [.start (straight 9)]).L ≠ (v10 [.start (straight 9)]).L := ⟨rfl, rfl, rfl, rfl, rfl, by decide⟩

/-- SecondEncodeStartsWhereTheFirstEnded (Program 2). -/
theorem test_witness_second : ∃ t1, encoded 5 (caller [0xC8, 0x5F] [0x3A, 0xE0] [0xF0, 0x0F] []) = .next t1 ∧
    t1.seq = .done ∧
    Ready { caller [0xC8, 0x5F] [0x3A, 0xE0] [0xF0, 0x0F] [] with
      streams := (caller [0xC8, 0x5F] [0x3A, 0xE0] [0xF0, 0x0F] []).streams.moved (ceilDiv 5 8) }
      3 .c0 .c1 .c2 [0x5F] [0xE0] [0x0F] :=
  ⟨_, rfl, rfl, ⟨rfl, rfl, rfl, rfl, rfl, ⟨_, rfl⟩, ⟨_, rfl⟩, ⟨_, rfl⟩⟩⟩

/-- DecodeUndoesEncodeAtEveryPlace: each clause. -/
theorem test_witness_places : opAt 13 0 = some .tailPartLo1 ∧ opAt 13 3 = some .fullHi ∧
    encodeCommand .fullHi = none ∧ encodeCommand (.encode 9 .c0 .c1 .c2) = some (straight 9) := by decide

/-- ForeignBuffersAreRejected, each clause: an odd length; a bad nibble in the only pair and in the last of three; a
partial nibble in the last of three; nothing wrong, with a partial pair 0, and in the empty buffer. -/
theorem test_witness_foreign : ([0x00] : List Byte).length % 2 = 1 ∧
    ¬IsValidBits (validAt [0x00, 0x07] 0) ∧ ¬IsValidBits (validAt [0x00, 0x0F, 0x00, 0x0F, 0x00, 0xF0] 2) ∧
    ((∀ p, 2 * p < 6 → IsValidBits (validAt [0x00, 0x08, 0x00, 0x0F, 0x00, 0x0E] p)) ∧
      validAt [0x00, 0x08, 0x00, 0x0F, 0x00, 0x0E] 2 ≠ 0xF) ∧
    ((∀ p, 2 * p < 4 → IsValidBits (validAt [0x00, 0x08, 0x00, 0x0F] p)) ∧
      ∀ p, 0 < p → 2 * p < 4 → validAt [0x00, 0x08, 0x00, 0x0F] p = 0xF) ∧
    ∀ p, 2 * p < 0 → IsValidBits (validAt [] p) := by
  refine ⟨rfl, by unfold IsValidBits; decide, by unfold IsValidBits; decide, ⟨fun p h => ?_, by decide⟩,
    ⟨fun p h => ?_, fun p h0 h => ?_⟩, fun p h => by omega⟩
  · obtain rfl | rfl | rfl : p = 0 ∨ p = 1 ∨ p = 2 := by omega
    all_goals unfold IsValidBits; decide
  · obtain rfl | rfl : p = 0 ∨ p = 1 := by omega
    all_goals unfold IsValidBits; decide
  · obtain rfl : p = 1 := by omega
    decide

/-- StatusShowsTheSequencerState: a caller that polls STATUS during a transaction. -/
theorem test_witness_status : Invariant (begun 8 [.readStatus]) ∧ (begun 8 [.readStatus]).schedule = .readStatus :: [] :=
  ⟨begun_invariant _ _, rfl⟩

/-- TransactionIsAtomicToTheCaller: in a transaction and outside one. -/
theorem test_witness_atomic : (Invariant (begun 8 []) ∧ (begun 8 []).busy = true) ∧
    (Invariant (atDone []) ∧ (atDone []).busy = false) := ⟨⟨begun_invariant _ _, rfl⟩, ⟨atDone_invariant _, rfl⟩⟩

/-- PairOpsWriteTheEncodedBytes: a pair of a full group and one of the tail. -/
theorem test_witness_encoded : pairBase (latched 0xB2 0xF0 0xFF 2 1 0 8) .fullLo = some 6 ∧
    pairBase (latched 0xA5 0x96 0xFF 2 0 1 2) .tailPartHi1 = some 0 ∧
    (latched 0xB2 0xF0 0xFF 2 1 0 8).obuf = some [] ∧ 6 + 1 < (latched 0xB2 0xF0 0xFF 2 1 0 8).L ∧
    0 + 1 < (latched 0xA5 0x96 0xFF 2 0 1 2).L ∧ ∀ a, Memory.read [] a = none :=
  ⟨rfl, rfl, rfl, by decide, by decide, fun _ => rfl⟩

/-- FetchedPairIsDelivered: the lowest and the highest word of the table's patterns. -/
theorem test_witness_fetched : (8 < 65536 ∧ decodeTableWord 16 8 = some .tailPartHi1) ∧
    (65535 < 65536 ∧ decodeTableWord 16 65535 = some .tailFullHi) := by decide

end Sys2Proof.Tests
end

section
/-! Reset, the invariant along every step, and what the caller reads (10_state.md sections 2 to 5): obligations O1, O2,
O3, O23, O24 and O48. -/

namespace Sys2Proof.Machine

/-! ### What the parts of a step that are no start keep -/

theorem reset_invariant : Invariant State.reset :=
  ⟨(seqFields_idle rfl).2 ⟨rfl, rfl⟩, fun _ h => (by cases h), fun h => (by cases h)⟩

/-- Outside a transaction the encoder waits (70_reset_and_hazards.md R150). -/
theorem encoderStep_of_not_busy {s : State} (h : s.busy = false) : encoderStep s = .next s := by
  cases hs : s.seq with
  | idle | done | error => simp [encoderStep, hs]
  | full | tail => simp [State.busy, statusState, hs] at h

theorem encoderStep_invariant {s t : State} (hi : Invariant s) (h : encoderStep s = .next t) : Invariant t := by
  cases hb : s.busy with
  | false =>
    rw [encoderStep_of_not_busy hb] at h
    cases h
    exact hi
  | true =>
    obtain hs | hs := (busy_iff s).1 hb
    · obtain ⟨_, mem, hm, hr⟩ | ⟨e, g, s', _, _, hr⟩ := fullStep_cases hi hs <;>
        simp only [encoderStep, hs, hr] at h <;> cases h
      · exact fullStep_invariant hi hs hm
      · exact raise_invariant _ _ _
    · obtain ⟨_, mem, mem', hm, hr, hwf, hread⟩ | ⟨e, g, s', _, _, hr⟩ := tailStep_cases hi hs <;>
        simp only [encoderStep, hs, hr] at h <;> cases h
      · exact tailStep_invariant hi hs hm hwf _ hread
      · exact raise_invariant _ _ _

/-! ### The caller's turns, one lemma for each that needs more than its definition -/

theorem takeTurn_setStream_eq_next {c : Cursor} {st : Stream} {s t : State}
    (h : takeTurn (.setStream c st) s = .next t) : t = { s with streams := s.streams.set c st } := by
  simp only [takeTurn] at h
  split at h <;> cases h
  rfl

theorem takeTurn_readStatus_eq_next {s t : State} (h : takeTurn .readStatus s = .next t) : t = s := by
  simp only [takeTurn] at h
  split at h <;> cases h
  rfl

theorem takeTurn_readCell_eq_next {off : Nat} {s t : State} (h : takeTurn (.readCell off) s = .next t) : t = s := by
  simp only [takeTurn] at h
  split at h <;> cases h
  rfl

/-- A start answers with the invariant from every state, with it or without. -/
theorem startTransaction_invariant {count : Int} {a b c : Cursor} {s t : State}
    (h : startTransaction count a b c s = .next t) : Invariant t := by
  obtain ⟨_, hr⟩ | ⟨_, _, hr⟩ | ⟨_, _, hr, ht⟩ := startTransaction_cases count a b c s <;>
    rw [hr] at h <;> cases h
  exact ht

theorem execEncode_invariant {count : Int} {a b c : Cursor} {s t : State} (h : execEncode count a b c s = .next t) :
    Invariant t := by
  obtain ⟨_, hr⟩ | ⟨_, _, hr⟩ | ⟨_, _, u, hr, hu⟩ := execEncode_outcomes count a b c s <;>
    rw [hr] at h <;> cases h
  exact hu

theorem takeTurn_invariant {turn : Turn} {s t : State} (hi : Invariant s) (h : takeTurn turn s = .next t) :
    Invariant t := by
  cases turn with
  | encoder => exact encoderStep_invariant hi h
  | start c => exact startTransaction_invariant h
  | call c => exact execEncode_invariant h
  | reset =>
    cases h
    exact invariant_caller reset_invariant _ _ _
  | setStream c st =>
    rw [takeTurn_setStream_eq_next h]
    exact invariant_caller hi s.schedule _ s.draws
  | readStatus => rw [takeTurn_readStatus_eq_next h]; exact hi
  | readCell off => rw [takeTurn_readCell_eq_next h]; exact hi

/-- A step is the turn of the schedule's head, the encoder's where there is none. -/
theorem step_eq_takeTurn (s : State) :
    step s = takeTurn (s.schedule.head?.getD .encoder) { s with schedule := s.schedule.tail } := by
  unfold step
  cases s
  rename_i schedule _
  cases schedule <;> rfl

theorem step_of_schedule {s : State} {turn : Turn} {rest : List Turn} (h : s.schedule = turn :: rest) :
    step s = takeTurn turn { s with schedule := rest } := by simp only [step, h]

theorem step_invariant {s t : State} (hi : Invariant s) (h : step s = .next t) : Invariant t := by
  rw [step_eq_takeTurn] at h
  exact takeTurn_invariant (invariant_caller hi _ s.streams s.draws) h

/-! ### What the caller reads -/

theorem result_of_not_done {s : State} (h : s.seq ≠ .done) : result s = none := by simp [result, h]

/-- STATUS never shows the reserved error code (10_state.md R24). -/
theorem Invariant.err_ne_reserved {s : State} (hi : Invariant s) : s.err ≠ 3 := by
  have hf := hi.fields
  have hne : ∀ e : BitVec 2, e = 0 ∨ e = 1 ∨ e = 2 → e ≠ 3 := by decide
  apply hne
  cases hs : s.seq with
  | idle => exact .inl ((seqFields_idle hs).1 hf).1
  | full => exact .inl ((seqFields_full hs).1 hf).1
  | tail => exact .inl ((seqFields_tail hs).1 hf).1
  | done => exact .inl ((seqFields_done hs).1 hf).1
  | error => exact .inr ((seqFields_error hs).1 hf).1

/-- At DONE a read below `L` gives the byte of the delivered buffer (10_state.md R31, R32). -/
theorem callerRead_of_done {s : State} (hi : Invariant s) (hd : s.seq = .done) {off : Nat} (hl : off < s.L) :
    ∃ buf b, result s = some buf ∧ buf.length = s.L ∧ buf[off]? = some b ∧ callerRead s off = .ok b := by
  obtain ⟨buf, hr, hlen, hcell⟩ := done_result hi hd
  obtain ⟨_, _, _, hw⟩ := (seqFields_done hd).1 hi.fields
  obtain ⟨b, hb⟩ := Option.isSome_iff_exists.1 ((hw off).2 ⟨Nat.zero_le _, hl⟩)
  exact ⟨buf, b, hr, hlen, (hcell off hl).trans hb, by simp [callerRead, hd, hl, hb]⟩

theorem takeTurn_readCell_ok {s : State} {off : Nat} {b : Byte} (h : callerRead s off = .ok b) :
    takeTurn (.readCell off) s = .next s := by simp [takeTurn, h]

theorem takeTurn_readCell_error {s : State} {off : Nat} {f : Fault} (h : callerRead s off = .error f) :
    takeTurn (.readCell off) s = .fault f := by simp [takeTurn, h]

/-- Outside a transaction a turn that is no start, call or reset leaves what the caller sees of it (10_state.md R32). -/
theorem takeTurn_holds {turn : Turn} {s t : State} (hb : s.busy = false) (h : takeTurn turn s = .next t)
    (hstart : ∀ c, turn ≠ .start c) (hcall : ∀ c, turn ≠ .call c) (hreset : turn ≠ .reset) :
    result t = result s ∧ t.seq = s.seq ∧ t.err = s.err := by
  cases turn with
  | encoder =>
    rw [takeTurn, encoderStep_of_not_busy hb] at h
    cases h
    exact ⟨rfl, rfl, rfl⟩
  | start c => exact absurd rfl (hstart c)
  | call c => exact absurd rfl (hcall c)
  | reset => exact absurd rfl hreset
  | setStream c st => rw [takeTurn_setStream_eq_next h]; exact ⟨rfl, rfl, rfl⟩
  | readStatus => rw [takeTurn_readStatus_eq_next h]; exact ⟨rfl, rfl, rfl⟩
  | readCell off => rw [takeTurn_readCell_eq_next h]; exact ⟨rfl, rfl, rfl⟩

/-! ### The obligations -/

/-- Settles O1: each field of the reset state is read off. -/
theorem resetIsIdleWithoutBuffer : Obligations.ResetIsIdleWithoutBuffer :=
  ⟨rfl, rfl, rfl, rfl, result_of_not_done (by simp [State.reset])⟩

/-- Settles O2. -/
theorem invariantHoldsAtReset : Obligations.InvariantHoldsAtReset := reset_invariant

/-- Settles O3, turn by turn: a start and a call by what they answer, the encoder's turn by the ways a transaction goes
on, and the caller's other turns because the invariant does not read what they change. -/
theorem everyStepKeepsTheInvariant : Obligations.EveryStepKeepsTheInvariant :=
  fun _ _ hi h => step_invariant hi h

/-- Settles O23: at DONE the invariant has every cell below `L` written. -/
theorem resultIsReadWholeAndOnlyAtDone : Obligations.ResultIsReadWholeAndOnlyAtDone := by
  intro s off rest hi hs
  rw [step_of_schedule hs]
  refine ⟨fun hd => ⟨takeTurn_readCell_error ?_, result_of_not_done hd⟩, fun hd hl => takeTurn_readCell_error ?_,
    fun hd hl => ?_⟩
  · simp [callerRead, hd]
  · simp [callerRead, hd, Nat.not_lt.2 hl]
  · obtain ⟨buf, b, hr, hlen, hb, hread⟩ := callerRead_of_done hi hd hl
    exact ⟨takeTurn_readCell_ok (b := b) hread, buf, b, hr, hlen, hb, hread⟩

/-- Settles O24: of the turns left, only a change of a stream changes the state, and the result does not read it. -/
theorem resultIsHeldUntilTheNextStart : Obligations.ResultIsHeldUntilTheNextStart := by
  intro s t hb h hstart hcall hreset
  rw [step_eq_takeTurn] at h
  have hhead : ∀ turn, turn ≠ .encoder → s.schedule.head? ≠ some turn → s.schedule.head?.getD .encoder ≠ turn := by
    intro turn hne hh
    cases hc : s.schedule.head? with
    | none => exact hne.symm
    | some u => simpa [hc] using hh
  exact takeTurn_holds (s := { s with schedule := s.schedule.tail }) hb h
    (fun c => hhead _ (by simp) (hstart c)) (fun c => hhead _ (by simp) (hcall c)) (hhead _ (by simp) hreset)

/-- Settles O48: STATUS is a function of the sequencer state, and under the invariant it is never the reserved code. -/
theorem statusShowsTheSequencerState : Obligations.StatusShowsTheSequencerState := by
  refine ⟨fun s => ⟨?_, by simp [State.busy, observe], rfl⟩, fun s rest hi hs => ?_⟩
  · cases hs : s.seq <;> simp [observe, statusState, hs]
  · rw [step_of_schedule hs]
    exact if_neg hi.err_ne_reserved

end Sys2Proof.Machine
end

section
/-! No datapath register and nothing an earlier transaction left can be seen (10_state.md R20, R34, R35): obligation O41.
Two runs are compared: `Alike` says in which registers two states may differ, every step keeps it, and the caller sees no
such register. -/

namespace Sys2Proof.Machine

/-! ### Two answers that agree -/

/-- Two next states that `R` relates, or the same stop. -/
inductive Agree (R : State → State → Prop) : Result → Result → Prop
  | next {s t : State} (h : R s t) : Agree R (.next s) (.next t)
  | fault (e : Fault) : Agree R (.fault e) (.fault e)
  | refused (e : Refusal) : Agree R (.refused e) (.refused e)

section
variable {R Q : State → State → Prop} {x y : Result}

theorem Agree.refl (hR : ∀ s, R s s) (x : Result) : Agree R x x := by
  cases x with
  | next s => exact .next (hR s)
  | fault e => exact .fault e
  | refused e => exact .refused e

theorem Agree.andThen {f g : State → Result} (h : Agree R x y) (hf : ∀ s t, R s t → Agree Q (f s) (g t)) :
    Agree Q (andThen x f) (andThen y g) := by
  cases h with
  | next h => exact hf _ _ h
  | fault e => exact .fault e
  | refused e => exact .refused e

/-- A relation that every step keeps relates two runs of any length. -/
theorem agree_run (hstep : ∀ s t, R s t → Agree R (step s) (step t)) (k : Nat) {s t : State} (h : R s t) :
    Agree R (run k s) (run k t) := by
  induction k generalizing s t with
  | zero => exact .next h
  | succ k ih =>
    rw [run_succ, run_succ]
    exact (hstep s t h).andThen fun _ _ => ih

end

/-! ### In which registers two states may differ -/

/-- The parts of the state that are not the block's: the caller's streams, who acts next, and the draws. -/
structure SameCaller (s t : State) : Prop where
  streams : t.streams = s.streams
  schedule : t.schedule = s.schedule
  draws : t.draws = s.draws

/-- The same state but for the group index and the element latches (10_state.md R26, R27). -/
def UpToDatapath (s t : State) : Prop := ∃ i m d o, t = { s with i := i, m := m, d := d, o := o }

/-- The same state but for the group index. -/
def UpToIndex (s t : State) : Prop := ∃ i, t = { s with i := i }

/-- Two states that no later step tells apart. In ERROR only STATUS matters; elsewhere all but the latches, and but for
the group index, which only a FULL step reads. -/
inductive Alike (s t : State) : Prop
  | error (hs : s.seq = .error) (ht : t.seq = .error) (err : t.err = s.err) (caller : SameCaller s t)
  | datapath (h : UpToDatapath s t) (index : s.seq = .full → t.i = s.i)

theorem Alike.refl (s : State) : Alike s s := .datapath ⟨s.i, s.m, s.d, s.o, rfl⟩ fun _ => rfl

theorem UpToIndex.upToDatapath {s t : State} (h : UpToIndex s t) : UpToDatapath s t := by
  obtain ⟨i, rfl⟩ := h
  exact ⟨i, s.m, s.d, s.o, rfl⟩

theorem UpToDatapath.sameCaller {s t : State} (h : UpToDatapath s t) : SameCaller s t := by
  obtain ⟨i, m, d, o, rfl⟩ := h
  exact ⟨rfl, rfl, rfl⟩

theorem UpToDatapath.seq {s t : State} (h : UpToDatapath s t) : t.seq = s.seq := by
  obtain ⟨i, m, d, o, rfl⟩ := h
  rfl

theorem Alike.sameCaller {s t : State} : Alike s t → SameCaller s t
  | .error _ _ _ hc => hc
  | .datapath h _ => h.sameCaller

theorem Alike.seq {s t : State} : Alike s t → t.seq = s.seq
  | .error hs ht _ _ => ht.trans hs.symm
  | .datapath h _ => h.seq

theorem Alike.err {s t : State} : Alike s t → t.err = s.err
  | .error _ _ he _ => he
  | .datapath h _ => by obtain ⟨_, _, _, _, rfl⟩ := h; rfl

theorem Alike.busy {s t : State} (h : Alike s t) : t.busy = s.busy := by simp [State.busy, h.seq]

theorem Alike.withSchedule {s t : State} (h : Alike s t) (l : List Turn) :
    Alike { s with schedule := l } { t with schedule := l } := by
  cases h with
  | error hs ht he hc => exact .error hs ht he ⟨hc.streams, rfl, hc.draws⟩
  | datapath h hidx =>
    obtain ⟨i, m, d, o, rfl⟩ := h
    exact .datapath ⟨i, m, d, o, rfl⟩ hidx

theorem Alike.withStreams {s t : State} (h : Alike s t) (ss : Streams) :
    Alike { s with streams := ss } { t with streams := ss } := by
  cases h with
  | error hs ht he hc => exact .error hs ht he ⟨rfl, hc.schedule, hc.draws⟩
  | datapath h hidx =>
    obtain ⟨i, m, d, o, rfl⟩ := h
    exact .datapath ⟨i, m, d, o, rfl⟩ hidx

/-! ### What the caller sees -/

theorem Alike.callerRead {s t : State} (h : Alike s t) (off : Nat) : callerRead t off = callerRead s off := by
  cases h with
  | error hs ht _ _ => simp [Machine.callerRead, hs, ht]
  | datapath h _ =>
    obtain ⟨i, m, d, o, rfl⟩ := h
    rfl

theorem Alike.result {s t : State} (h : Alike s t) : result t = result s := by
  cases h with
  | error hs ht _ _ => simp [Machine.result, hs, ht]
  | datapath h _ =>
    obtain ⟨i, m, d, o, rfl⟩ := h
    rfl

theorem Alike.observe {s t : State} (h : Alike s t) : observe t = observe s := by
  simp [Machine.observe, cursorsSeen, h.seq, h.err, h.result, h.busy, h.sameCaller.streams]

/-! ### The reads of a step overwrite the latches (20_memory.md R42) -/

/-- One read takes the same element, or raises the same error, whatever the index and the latches hold. -/
theorem readInto_anyDatapath (g : Signal) (s : State) :
    (∃ b ss, ∀ i m d o, readInto g { s with i := i, m := m, d := d, o := o } = .ok { s with
        streams := ss, i := i, m := if g = .tms then b else m, d := if g = .tdi then b else d
        o := if g = .tdom then b else o }) ∨
    ∃ e, ∀ i m d o, readInto g { s with i := i, m := m, d := d, o := o } =
      .raised e g { s with i := i, m := m, d := d, o := o } := by
  have hst : ∀ i m d o, State.streamOf { s with i := i, m := m, d := d, o := o } g = s.streamOf g := by
    intros; cases g <;> rfl
  cases h : headError (s.streamOf g) with
  | none =>
    refine .inl ⟨headByte (s.streamOf g), s.streams.set (s.cursorOf g) ((s.streamOf g).moved 1), fun i m d o => ?_⟩
    rw [readInto_ok (by rw [hst, h]), hst]
    cases g <;> rfl
  | some e => exact .inr ⟨e, fun i m d o => by rw [readInto, streamRead_raised (by rw [hst, h])]⟩

/-- The reads of a step overwrite the latches whatever these hold, or raise the same error. -/
theorem readGroup_anyDatapath (s : State) :
    (∃ b1 b2 b3 ss, ∀ i m d o, readGroup { s with i := i, m := m, d := d, o := o } =
      .ok { s with streams := ss, i := i, m := b1, d := b2, o := b3 }) ∨
    ∃ e g ss, ∀ i m d o, ∃ m' d' o', readGroup { s with i := i, m := m, d := d, o := o } =
      .raised e g { s with streams := ss, i := i, m := m', d := d', o := o' } := by
  unfold readGroup
  obtain ⟨b1, ss1, h1⟩ | ⟨e, h1⟩ := readInto_anyDatapath .tms s
  · simp only [h1, groupOutcome_ok_andThen, reduceCtorEq, ↓reduceIte]
    obtain ⟨b2, ss2, h2⟩ | ⟨e, h2⟩ := readInto_anyDatapath .tdi { s with streams := ss1 }
    · simp only [h2, groupOutcome_ok_andThen, reduceCtorEq, ↓reduceIte]
      obtain ⟨b3, ss3, h3⟩ | ⟨e, h3⟩ := readInto_anyDatapath .tdom { s with streams := ss2 }
      · exact .inl ⟨b1, b2, b3, ss3, fun i _ _ o => h3 i b1 b2 o⟩
      · exact .inr ⟨e, .tdom, ss2, fun i _ _ o => ⟨b1, b2, o, h3 i b1 b2 o⟩⟩
    · simp only [h2, groupOutcome_raised_andThen]
      exact .inr ⟨e, .tdi, ss1, fun i _ d o => ⟨b1, d, o, rfl⟩⟩
  · simp only [h1, groupOutcome_raised_andThen]
    exact .inr ⟨e, .tms, s.streams, fun i m d o => ⟨m, d, o, rfl⟩⟩

/-- A step's reads and what follows them: it is enough to compare what follows with the latches equal. -/
theorem readThen_alike {f : State → Result} {s t : State} (h : UpToDatapath s t)
    (hf : ∀ u : State, Agree Alike (f { u with i := s.i }) (f { u with i := t.i })) :
    Agree Alike (readThen f s) (readThen f t) := by
  obtain ⟨i, m, d, o, rfl⟩ := h
  unfold readThen
  obtain ⟨b1, b2, b3, ss, hr⟩ | ⟨e, g, ss, hr⟩ := readGroup_anyDatapath s
  · rw [hr s.i s.m s.d s.o, hr i m d o]
    exact hf { s with streams := ss, m := b1, d := b2, o := b3 }
  · obtain ⟨_, _, _, ht⟩ := hr i m d o
    obtain ⟨_, _, _, hs⟩ := hr s.i s.m s.d s.o
    rw [hs, ht]
    exact .next (.error rfl rfl rfl ⟨rfl, rfl, rfl⟩)

/-- Where the index is the same too, the reads leave nothing to compare. -/
theorem readThen_alike_of_index {f : State → Result} {s t : State} (h : UpToDatapath s t) (hidx : t.i = s.i) :
    Agree Alike (readThen f s) (readThen f t) :=
  readThen_alike h fun u => by rw [hidx]; exact Agree.refl Alike.refl _

/-- An error of the reads ends what follows, so what follows may be run inside. -/
theorem unlessError_readThen (f k : State → Result) (s : State) :
    unlessError (readThen f s) k = readThen (fun u => unlessError (f u) k) s := by
  unfold readThen
  cases readGroup s with
  | ok u => rfl
  | raised e g u => exact unlessError_of_error rfl k

/-! ### The tail's pairs do not read the group index -/

theorem memWrite_upToIndex (off : Nat) (v : Byte) {s t : State} (h : UpToIndex s t) :
    Agree UpToIndex (memWrite off v s) (memWrite off v t) := by
  obtain ⟨i, rfl⟩ := h
  simp only [memWrite]
  split
  · exact .fault _
  · split
    · exact .fault _
    · split
      · exact .fault _
      · exact .next ⟨i, rfl⟩

theorem writePair_upToIndex (hf : Half) (k base : Nat) {s t : State} (h : UpToIndex s t) :
    Agree UpToIndex (writePair hf k base s) (writePair hf k base t) := by
  unfold writePair
  split
  · exact .refused _
  · obtain ⟨i, rfl⟩ := h
    exact (memWrite_upToIndex _ _ ⟨i, rfl⟩).andThen fun _ _ => memWrite_upToIndex _ _

theorem partLoFor_upToIndex (k : Nat) {s t : State} (h : UpToIndex s t) :
    Agree UpToIndex (partLoFor k s) (partLoFor k t) := by
  unfold partLoFor
  split
  iterate 3 exact writePair_upToIndex _ _ _ h
  exact .refused _

theorem partHiFor_upToIndex (k : Nat) {s t : State} (h : UpToIndex s t) :
    Agree UpToIndex (partHiFor k s) (partHiFor k t) := by
  unfold partHiFor
  split
  iterate 3 exact writePair_upToIndex _ _ _ h
  exact .refused _

theorem tailPairs_upToIndex {s t : State} (h : UpToIndex s t) : Agree UpToIndex (tailPairs s) (tailPairs t) := by
  obtain ⟨i, rfl⟩ := h
  unfold tailPairs
  by_cases hr : 4 ≤ s.r
  · rw [if_pos hr, if_pos hr]
    refine (writePair_upToIndex .high 4 (tailFullHiBase s) ⟨i, rfl⟩).andThen fun s' t' h' => ?_
    obtain ⟨i', rfl⟩ := h'
    by_cases h4 : s'.r4 = 0
    · rw [if_pos h4, if_pos h4]
      exact .next ⟨i', rfl⟩
    · rw [if_neg h4, if_neg h4]
      exact partLoFor_upToIndex _ ⟨i', rfl⟩
  · rw [if_neg hr, if_neg hr]
    exact partHiFor_upToIndex _ ⟨i, rfl⟩

/-! ### The steps of a transaction, and ENCODE -/

theorem finish_alike {s t : State} (h : UpToDatapath s t) : Alike (finish s) (finish t) := by
  obtain ⟨i, m, d, o, rfl⟩ := h
  exact .datapath ⟨i, m, d, o, rfl⟩ fun h => by cases h

/-- The tail's reads, its pairs and the end. -/
theorem tailEnd_alike {s t : State} (h : UpToDatapath s t) :
    Agree Alike (unlessError (readThen tailPairs s) fun s' => .next (finish s'))
      (unlessError (readThen tailPairs t) fun s' => .next (finish s')) := by
  rw [unlessError_readThen, unlessError_readThen]
  refine readThen_alike h fun u => ?_
  have hpairs : Agree UpToIndex (tailPairs { u with i := s.i }) (tailPairs { u with i := t.i }) :=
    tailPairs_upToIndex ⟨t.i, rfl⟩
  refine hpairs.andThen fun s' t' h' => ?_
  by_cases he : s'.seq = .error
  · obtain ⟨i, rfl⟩ := h'
    rw [if_pos he, if_pos he]
    exact .next (.error he he rfl ⟨rfl, rfl, rfl⟩)
  · rw [if_neg he, if_neg (by rw [h'.upToDatapath.seq]; exact he)]
    exact .next (finish_alike h'.upToDatapath)

theorem tailStep_alike {s t : State} (h4 : s.r4 < 4) (h : UpToDatapath s t) :
    Agree Alike (tailStep s) (tailStep t) := by
  have h4' : t.r4 < 4 := by obtain ⟨_, _, _, _, rfl⟩ := h; exact h4
  rw [tailStep_eq h4, tailStep_eq h4']
  exact tailEnd_alike h

theorem fullStep_alike {s t : State} (h : UpToDatapath s t) (hidx : t.i = s.i) :
    Agree Alike (fullStep s) (fullStep t) := by
  rw [fullStep_eq, fullStep_eq, unlessError_readThen, unlessError_readThen]
  exact readThen_alike_of_index h hidx

theorem encoderStep_alike {s t : State} (hi : Invariant s) (h : Alike s t) :
    Agree Alike (encoderStep s) (encoderStep t) := by
  cases hb : s.busy with
  | false =>
    rw [encoderStep_of_not_busy hb, encoderStep_of_not_busy (h.busy.trans hb)]
    exact .next h
  | true =>
    have hseq := h.seq
    cases h with
    | error hs _ _ _ => simp [State.busy, statusState, hs] at hb
    | datapath h hidx =>
      obtain hs | hs := (busy_iff s).1 hb
      · simp only [encoderStep, hseq, hs]
        exact fullStep_alike h (hidx hs)
      · obtain ⟨_, _, hc, _⟩ := (seqFields_tail hs).1 hi.fields
        have hr4 := hc.r4
        simp only [encoderStep, hseq, hs]
        exact tailStep_alike (by omega) h

/-- An accepted start writes every register that is read later (10_state.md R34). -/
theorem acceptStart_alike (count : Int) (a b c : Cursor) {s t : State} (h : SameCaller s t) :
    Alike (acceptStart count a b c s) (acceptStart count a b c t) := by
  unfold acceptStart
  split
  · refine .error rfl rfl rfl ⟨?_, h.schedule, ?_⟩
    · simp [h.streams, h.draws]
    · simp [h.draws]
  · refine .datapath ⟨if 0 < count.toNat / 8 then count.toNat / 8 - 1 else t.i, t.m, t.d, t.o, ?_⟩ fun hf => ?_
    · simp [State.latchCount, State.bind, h.streams, h.schedule, h.draws]
    · simp only [latchCount_seq, firstSeq] at hf
      split at hf
      · simp [*]
      · split at hf <;> cases hf

theorem startTransaction_alike (count : Int) (a b c : Cursor) {s t : State} (hb : t.busy = s.busy)
    (h : SameCaller s t) : Agree Alike (startTransaction count a b c s) (startTransaction count a b c t) := by
  unfold startTransaction
  rw [hb]
  split
  · exact .fault _
  · split
    · exact .next (acceptStart_alike count a b c h)
    · exact .refused _

/-- The tail group, where there is one, and the end. -/
theorem tailGroupEnd_alike {s t : State} (h : UpToDatapath s t) (he : s.seq ≠ .error) :
    Agree Alike (unlessError (tailGroup s) fun s' => .next (finish s'))
      (unlessError (tailGroup t) fun s' => .next (finish s')) := by
  have hr : t.r = s.r := by obtain ⟨_, _, _, _, rfl⟩ := h; rfl
  unfold tailGroup
  rw [hr]
  by_cases h0 : s.r = 0
  · rw [if_pos h0, if_pos h0, unlessError_of_ne he, unlessError_of_ne (by rw [h.seq]; exact he)]
    exact .next (finish_alike h)
  · rw [if_neg h0, if_neg h0]
    exact tailEnd_alike h

/-- The full groups and what follows them: the first group's reads leave nothing to compare. -/
theorem fullGroups_alike {k : State → Result} (n : Nat) {s t : State} (h : UpToDatapath s t) (he : s.seq ≠ .error)
    (hk : Agree Alike (k s) (k t)) :
    Agree Alike (unlessError (fullGroups n s) k) (unlessError (fullGroups n t) k) := by
  cases n with
  | zero => rwa [fullGroups, fullGroups, unlessError_of_ne he, unlessError_of_ne (by rw [h.seq]; exact he)]
  | succ n =>
    obtain ⟨i, m, d, o, rfl⟩ := h
    simp only [fullGroups, unlessError_readThen]
    exact readThen_alike_of_index ⟨n, m, d, o, rfl⟩ rfl

theorem execEncode_alike (count : Int) (a b c : Cursor) {s t : State} (hb : t.busy = s.busy) (h : SameCaller s t) :
    Agree Alike (execEncode count a b c s) (execEncode count a b c t) := by
  refine (startTransaction_alike count a b c hb h).andThen fun s0 t0 h0 => ?_
  by_cases he : s0.seq = .error
  · rw [if_pos he, if_pos (h0.seq.trans he)]
    exact .next h0
  · rw [if_neg he, if_neg (by rw [h0.seq]; exact he)]
    cases h0 with
    | error hs _ _ _ => exact absurd hs he
    | datapath h0 _ =>
      have hq : t0.q = s0.q := by obtain ⟨_, _, _, _, rfl⟩ := h0; rfl
      simp only [hq]
      exact fullGroups_alike s0.q h0 he (tailGroupEnd_alike h0 he)

/-! ### Every step -/

theorem Alike.resetBlock {s t : State} (h : Alike s t) : resetBlock t = resetBlock s := by
  simp only [Machine.resetBlock, h.busy]
  split <;> simp [h.sameCaller.streams, h.sameCaller.schedule, h.sameCaller.draws]

theorem takeTurn_alike (turn : Turn) {s t : State} (hi : Invariant s) (h : Alike s t) :
    Agree Alike (takeTurn turn s) (takeTurn turn t) := by
  cases turn with
  | encoder => exact encoderStep_alike hi h
  | start c => exact startTransaction_alike _ _ _ _ h.busy h.sameCaller
  | call c => exact execEncode_alike _ _ _ _ h.busy h.sameCaller
  | reset =>
    simp only [takeTurn, h.resetBlock]
    exact .next (Alike.refl _)
  | setStream c st =>
    simp only [takeTurn, h.busy, h.sameCaller.streams]
    split
    · exact .refused _
    · exact .next (h.withStreams _)
  | readStatus =>
    simp only [takeTurn, h.err]
    split
    · exact .fault _
    · exact .next h
  | readCell off =>
    simp only [takeTurn, h.callerRead]
    split
    · exact .next h
    · exact .fault _

theorem step_alike {s t : State} (hi : Invariant s) (h : Alike s t) : Agree Alike (step s) (step t) := by
  rw [step_eq_takeTurn, step_eq_takeTurn t, h.sameCaller.schedule]
  exact takeTurn_alike _ (invariant_caller hi _ s.streams s.draws) (h.withSchedule _)

/-- Two states that no later step tells apart, the first with the invariant, by which a TAIL step has its `r4`. -/
def AlikeInvariant (s t : State) : Prop := Invariant s ∧ Alike s t

theorem Agree.withInvariant {x y : Result} (h : Agree Alike x y) (hi : ∀ s, x = .next s → Invariant s) :
    Agree AlikeInvariant x y := by
  cases h with
  | next h => exact .next ⟨hi _ rfl, h⟩
  | fault e => exact .fault e
  | refused e => exact .refused e

theorem run_alike (k : Nat) {s t : State} (h : AlikeInvariant s t) : Agree AlikeInvariant (run k s) (run k t) :=
  agree_run (fun _ _ ⟨hi, h⟩ => (step_alike hi h).withInvariant fun _ hn => step_invariant hi hn) k h

/-- Two states outside a transaction, on the same streams, are alike after the same start. -/
theorem step_start_alike {s t : State} {cmd : Command} {rest : List Turn} (hs : s.busy = false) (ht : t.busy = false)
    (hstr : t.streams = s.streams) (hdraws : t.draws = s.draws) (hsched : s.schedule = .start cmd :: rest)
    (hsched' : t.schedule = .start cmd :: rest) : Agree AlikeInvariant (step s) (step t) := by
  rw [step_of_schedule hsched, step_of_schedule hsched', takeTurn, takeTurn]
  refine Agree.withInvariant ?_ fun _ => startTransaction_invariant
  exact startTransaction_alike _ _ _ _ (ht.trans hs.symm) ⟨hstr, rfl, hdraws⟩

theorem sameToCaller_of_agree {x y : Result} (h : Agree AlikeInvariant x y) : SameToCaller x y := by
  cases h with
  | next h => exact h.2.observe.symm
  | fault e => exact rfl
  | refused e => exact rfl

/-! ### The obligation -/

/-- Settles O41: after the same start two states are `Alike`, every step keeps that, and the caller sees no register in
which alike states differ. -/
theorem earlierStateCannotBeSeen : Obligations.EarlierStateCannotBeSeen := by
  intro s s' cmd rest k hb hb' hstr hdraws hs hs'
  have h : Agree AlikeInvariant (run (k + 1) s) (run (k + 1) s') := by
    rw [run_succ, run_succ]
    exact (step_start_alike hb hb' hstr hdraws hs hs').andThen fun _ _ => run_alike k
  refine ⟨sameToCaller_of_agree h, fun t t' ht ht' => ?_⟩
  rw [ht, ht'] at h
  cases h with
  | next h => exact h.2.sameCaller.streams.symm

end Sys2Proof.Machine
end

section
/-! The output buffer's writes and the stream reads (20_memory.md sections 1, 2 and 5), and the encoder's turn over
them: obligations O4, O15, O16, O17, O21 and O49. -/

namespace Sys2Proof.Machine

/-! ### The steps a transaction still takes (41_encode.md R109, 70_reset_and_hazards.md R160) -/

theorem stepsLeft_full {s : State} (h : s.seq = .full) : stepsLeft s = s.i + 1 + (if s.r = 0 then 0 else 1) := by
  simp [stepsLeft, h]

theorem stepsLeft_tail {s : State} (h : s.seq = .tail) : stepsLeft s = 1 := by simp [stepsLeft, h]

@[simp] theorem stepsLeft_finish (s : State) : stepsLeft (finish s) = 0 := rfl

@[simp] theorem stepsLeft_setBuf (s : State) (mem : Memory) : stepsLeft (s.setBuf mem) = stepsLeft s := rfl

@[simp] theorem stepsLeft_afterReads (s : State) : stepsLeft s.afterReads = stepsLeft s := rfl

@[simp] theorem stepsLeft_raise (e : ErrKind) (g : Option Signal) (s : State) : stepsLeft (raise e g s) = 0 := rfl

/-- The way on from a FULL step takes one off what is left: a group, or the last group before the tail or the end. -/
theorem stepsLeft_advance {s : State} (h : s.seq = .full) : stepsLeft (advance s) + 1 = stepsLeft s := by
  rw [stepsLeft_full h]
  unfold advance
  by_cases hpos : 0 < s.i
  · rw [if_pos hpos, stepsLeft_full (s := { s with i := s.i - 1 }) h]
    dsimp only
    omega
  · rw [if_neg hpos]
    by_cases hr : s.r = 0
    · rw [if_pos hr, if_pos hr, stepsLeft_finish]
      omega
    · rw [if_neg hr, if_neg hr, stepsLeft_tail rfl]
      omega

/-- In a transaction the encoder's step never stops, and comes closer to the end: by one, or at once by an error. -/
theorem encoderStep_progress {s : State} (hi : Invariant s) (hb : s.busy = true) :
    ∃ t, encoderStep s = .next t ∧ stepsLeft t < stepsLeft s := by
  obtain hs | hs := (busy_iff s).1 hb <;> simp only [encoderStep, hs]
  · obtain ⟨_, mem, _, hr⟩ | ⟨e, g, s', _, _, hr⟩ := fullStep_cases hi hs
    · have hadv := stepsLeft_advance (s := s.afterReads.setBuf (fullMem s.afterReads mem)) hs
      rw [stepsLeft_setBuf, stepsLeft_afterReads] at hadv
      exact ⟨_, hr, by omega⟩
    · exact ⟨_, hr, by rw [stepsLeft_raise, stepsLeft_full hs]; omega⟩
  · rw [stepsLeft_tail hs]
    obtain ⟨_, _, _, _, hr, _⟩ | ⟨_, _, _, _, _, hr⟩ := tailStep_cases hi hs <;> exact ⟨_, hr, by simp⟩

/-- Settles O4: a FULL and a TAIL step answer next by what the invariant says of the cells, and each takes one off the
steps left, or ends in ERROR. -/
theorem encoderTurnAlwaysProgresses : Obligations.EncoderTurnAlwaysProgresses := by
  intro s s' hi ha
  have hi' := acts_invariant ha hi
  have hbusy : s'.busy = s.busy := by rw [acts_eq ha]; rfl
  have hleft : stepsLeft s' = stepsLeft s := by rw [acts_eq ha]; rfl
  rw [step_of_acts ha, ← hbusy, ← hleft]
  cases hb : s'.busy with
  | false => exact ⟨s', encoderStep_of_not_busy hb, by simp, fun _ => rfl⟩
  | true =>
    obtain ⟨t, hr, hlt⟩ := encoderStep_progress hi' hb
    exact ⟨t, hr, fun _ => hlt, by simp⟩

/-! ### Writes to the output buffer (20_memory.md R44) -/

/-- Settles O15: every pair operation is `writePair` with a mask, and that answers next just on two free cells. -/
theorem pairOpsCompleteExactlyOnFreeCells : Obligations.PairOpsCompleteExactlyOnFreeCells := by
  intro i s base hp
  obtain ⟨hf, k, v, hk, _, he⟩ := exec_pair hp
  rw [he]
  constructor
  · rintro ⟨t, ht⟩
    obtain ⟨_, mem, _, hb, hl, h0, h1, _⟩ := writePair_eq_next ht
    exact ⟨mem, hb, hl, h0, h1⟩
  · rintro ⟨mem, hb, hl, h0, h1⟩
    exact ⟨_, writePair_ok hk hb hl h0 h1⟩

section
variable {off : Nat} {v : Byte} {s : State} {mem : Memory}

theorem memWrite_noBuffer (h : s.obuf = none) : memWrite off v s = .fault .noBuffer := by simp [memWrite, h]

theorem memWrite_outOfBounds (hb : s.obuf = some mem) (hl : s.L ≤ off) :
    memWrite off v s = .fault .writeOutOfBounds := by simp [memWrite, hb, hl]

theorem memWrite_overwrite (hb : s.obuf = some mem) (hl : off < s.L) (hw : mem.read off ≠ none) :
    memWrite off v s = .fault .overwrite := by
  simp [memWrite, hb, Nat.not_le.2 hl, Option.isSome_iff_ne_none.2 hw]

end

/-- Settles O16, clause by clause: the three faults, and the one cell written. -/
theorem memWriteFaultsOffFreeCells : Obligations.MemWriteFaultsOffFreeCells := by
  intro off v s
  refine ⟨memWrite_noBuffer, fun mem hb => ⟨memWrite_outOfBounds hb, memWrite_overwrite hb, fun hl hu => ?_⟩⟩
  exact ⟨mem.write off v, memWrite_ok hb hl hu, Memory.read_write_same mem off v,
    fun _ ha => Memory.read_write_other mem v ha⟩

/-! ### Reads of the streams (20_memory.md R41) -/

theorem elemFits_iff (e : Int) : elemFits e = true ↔ 0 ≤ e ∧ e ≤ 255 := by simp [elemFits]

theorem headError_of_nil {st : Stream} (h : st.unread = []) : headError st = some .inputExhausted := by
  simp [headError, h]

theorem headError_of_cons {st : Stream} {e : Int} {rest : List Int} (h : st.unread = e :: rest) :
    headError st = if elemFits e then none else some .invalidArgument := by simp [headError, h]

/-- The byte of an element that the port carries has the element's value. -/
theorem headByte_toNat {st : Stream} {e : Int} {rest : List Int} (h : st.unread = e :: rest) (h0 : 0 ≤ e)
    (h255 : e ≤ 255) : ((headByte st).toNat : Int) = e := by
  simp only [headByte, h, List.headD_cons, BitVec.toNat_ofInt]
  omega

/-- A cursor with an element to read moves over it. -/
theorem Stream.moved_one_of_cons {st : Stream} {e : Int} {rest : List Int} (h : st.unread = e :: rest) :
    st.moved 1 = ⟨st.taken ++ [e], rest⟩ := by simp [Stream.moved, h]

/-- Settles O17: a read raises the stream's head error, and without one gives the head's byte and moves over it. -/
theorem streamReadTakesTheNextElement : Obligations.StreamReadTakesTheNextElement := by
  intro g s
  refine ⟨fun h => streamRead_raised (headError_of_nil h), fun e rest h => ⟨fun hbad => ?_, fun hfit => ?_⟩⟩
  · exact streamRead_raised (by rw [headError_of_cons h, if_neg (mt (elemFits_iff e).1 hbad)])
  · have hok := streamRead_ok (g := g) (s := s) (by rw [headError_of_cons h, if_pos ((elemFits_iff e).2 hfit)])
    rw [Stream.moved_one_of_cons h] at hok
    refine ⟨_, _, hok, headByte_toNat h hfit.1 hfit.2, ?_, ?_, fun c hc => ?_, rfl⟩
    · simp
    · simp [Stream.pos]
    · simp [hc]

/-! ### The streams during a transaction (20_memory.md R51, R54) -/

/-- Settles O21: outside a transaction a start looks at the cursors before the count, and ENCODE is refused with its
start; during one a change of a stream is refused. -/
theorem sharedOrChangedStreamsAreRefused : Obligations.SharedOrChangedStreamsAreRefused := by
  refine ⟨fun s count a b c hb hd => ?_, fun s c st rest hb hs => ?_⟩
  · have hstart : startTransaction count a b c s = .refused .sharedCursors := by simp [startTransaction, hb, hd]
    exact ⟨by rw [exec, execEncode, hstart, unlessError_refused], hstart⟩
  · rw [step_of_schedule hs]
    exact if_pos hb

/-- A transaction under way shows no error code (10_state.md R24). -/
theorem Invariant.err_of_busy {s : State} (hi : Invariant s) (hb : s.busy = true) : s.err = 0 := by
  obtain hs | hs := (busy_iff s).1 hb
  · exact ((seqFields_full hs).1 hi.fields).1
  · exact ((seqFields_tail hs).1 hi.fields).1

theorem busy_seq_ne_done {s : State} (hb : s.busy = true) : s.seq ≠ .done := by
  intro h
  simp [State.busy, statusState, h] at hb

/-- There is a result just at DONE (10_state.md R32). -/
theorem result_isSome_iff {s : State} (hi : Invariant s) : (result s).isSome = true ↔ s.seq = .done := by
  refine ⟨fun h => ?_, fun hd => ?_⟩
  · by_contra hd
    simp [result_of_not_done hd] at h
  · obtain ⟨buf, hr, _⟩ := done_result hi hd
    simp [hr]

/-- Settles O49: BUSY shows no error, no result and no cursors; else the caller sees its cursors' positions, and a
result just at DONE. -/
theorem transactionIsAtomicToTheCaller : Obligations.TransactionIsAtomicToTheCaller := by
  intro s hi
  refine ⟨fun hb => ?_, fun hb => ⟨?_, result_isSome_iff hi⟩⟩
  · have hstatus : statusState s.seq = 1 := by simpa [State.busy] using hb
    rw [observe, hstatus, hi.err_of_busy hb, result_of_not_done (busy_seq_ne_done hb), cursorsSeen, if_pos hb]
    rfl
  · simp [observe, cursorsSeen, hb, Streams.get]

end Sys2Proof.Machine
end

section
/-! The operation map and the output format (30_encoding.md): obligations O43, O44, O45 and O46. The map is turned into
`Stands`, the place of each operation, and every statement about a place goes through that. -/

namespace Sys2Proof.Machine

/-! ### The operation map (30_encoding.md R67) -/

theorem tailOffset_eq_pairs (n : Nat) : tailOffset n = 2 * tailPairCount n := rfl

theorem tailPairCount_of_ge {n : Nat} (h : 4 ≤ n % 8) : tailPairCount n = 1 + (if 0 < n % 4 then 1 else 0) := by
  rw [tailPairCount, if_pos h]

theorem tailPairCount_of_lt {n : Nat} (h : n % 8 < 4) : tailPairCount n = if 0 < n % 4 then 1 else 0 := by
  rw [tailPairCount, if_neg (by omega), Nat.zero_add]

/-- The output's pairs are those of the tail and two for each full group (41_encode.md R103). -/
theorem pairCount_eq (n : Nat) : ceilDiv n 4 = tailPairCount n + 2 * (n / 8) := by
  have h := pairs_eq n
  rw [tailOffset_eq_pairs] at h
  omega

/-- The map above the tail's pairs. -/
theorem opAt_of_tail_le {n p : Nat} (h : tailPairCount n ≤ p) : opAt n p =
    if p - tailPairCount n < 2 * (n / 8) then
      if (p - tailPairCount n) % 2 = 0 then some .fullLo else some .fullHi
    else none := if_neg (Nat.not_lt.2 h)

/-- The map in a tail of one partial sub-group. -/
theorem opAt_of_partial_tail {n : Nat} (h : n % 8 < 4) (h0 : n % 8 ≠ 0) : opAt n 0 = tailPartHi (n % 8) := by
  have hc := tailPairCount_of_lt h
  rw [if_pos (by omega)] at hc
  rw [opAt, if_pos (by omega), if_neg (by omega), show n % 4 = n % 8 by omega]

/-- The map at the tail's first four cycles. -/
theorem opAt_of_last_tail_pair {n : Nat} (h : 4 ≤ n % 8) : opAt n (if 0 < n % 4 then 1 else 0) = some .tailFullHi := by
  have hc := tailPairCount_of_ge h
  rw [opAt, if_pos (by omega), if_pos h, if_pos (by omega)]

/-- The map at the rest of a tail of more than four cycles. -/
theorem opAt_of_long_tail {n : Nat} (h : 4 < n % 8) : opAt n 0 = tailPartLo (n % 8 - 4) := by
  have hc := tailPairCount_of_ge (Nat.le_of_lt h)
  rw [if_pos (by omega)] at hc
  rw [opAt, if_pos (by omega), if_pos (by omega), if_neg (by omega), show n % 4 = n % 8 - 4 by omega]

theorem opAt_of_end_le {n p : Nat} (h : ceilDiv n 4 ≤ p) : opAt n p = none := by
  rw [pairCount_eq] at h
  rw [opAt_of_tail_le (by omega), if_neg (by omega)]

/-- Pair `p` is where the rules put the operation in the output of `ENCODE n` (30_encoding.md R67). -/
def Stands (n p : Nat) : Instr → Prop
  | .encode _ _ _ _ => False
  | .fullLo => ∃ i, i < n / 8 ∧ 2 * p = tailOffset n + 4 * i
  | .fullHi => ∃ i, i < n / 8 ∧ 2 * p = tailOffset n + 4 * i + 2
  | .tailFullHi => 4 ≤ n % 8 ∧ 2 * p = 2 * (if 0 < n % 4 then 1 else 0)
  | .tailPartLo1 => n % 8 = 5 ∧ p = 0
  | .tailPartLo2 => n % 8 = 6 ∧ p = 0
  | .tailPartLo3 => n % 8 = 7 ∧ p = 0
  | .tailPartHi1 => n % 8 = 1 ∧ p = 0
  | .tailPartHi2 => n % 8 = 2 ∧ p = 0
  | .tailPartHi3 => n % 8 = 3 ∧ p = 0

theorem opAt_of_stands {n p : Nat} {i : Instr} (h : Stands n p i) : opAt n p = some i := by
  have hT := tailOffset_eq_pairs n
  cases i with
  | encode => exact h.elim
  | fullLo =>
    obtain ⟨g, hg, hp⟩ := h
    rw [opAt_of_tail_le (by omega), if_pos (by omega), if_pos (by omega)]
  | fullHi =>
    obtain ⟨g, hg, hp⟩ := h
    rw [opAt_of_tail_le (by omega), if_pos (by omega), if_neg (by omega)]
  | tailFullHi =>
    obtain ⟨h4, hp⟩ := h
    rw [Nat.eq_of_mul_eq_mul_left (by decide) hp, opAt_of_last_tail_pair h4]
  | tailPartLo1 | tailPartLo2 | tailPartLo3 =>
    obtain ⟨hr, rfl⟩ := h
    rw [opAt_of_long_tail (by omega), hr]
    rfl
  | tailPartHi1 | tailPartHi2 | tailPartHi3 =>
    obtain ⟨hr, rfl⟩ := h
    rw [opAt_of_partial_tail (by omega) (by omega), hr]
    rfl

/-- Every pair of the tail is some operation's place. -/
theorem exists_stands_of_tail {n p : Nat} (hp : p < tailPairCount n) : ∃ i, Stands n p i := by
  by_cases hlt : n % 8 < 4
  · rw [tailPairCount_of_lt hlt] at hp
    have h4 : 0 < n % 4 := by
      by_contra h4
      rw [if_neg h4] at hp
      omega
    rw [if_pos h4] at hp
    obtain rfl : p = 0 := by omega
    obtain h | h | h : n % 8 = 1 ∨ n % 8 = 2 ∨ n % 8 = 3 := by omega
    · exact ⟨.tailPartHi1, h, rfl⟩
    · exact ⟨.tailPartHi2, h, rfl⟩
    · exact ⟨.tailPartHi3, h, rfl⟩
  · rw [tailPairCount_of_ge (by omega)] at hp
    by_cases hlast : p = if 0 < n % 4 then 1 else 0
    · exact ⟨.tailFullHi, by omega, congrArg (2 * ·) hlast⟩
    · have h4 : 0 < n % 4 := by
        by_contra h4
        rw [if_neg h4] at hp hlast
        omega
      rw [if_pos h4] at hp hlast
      obtain rfl : p = 0 := by omega
      obtain h | h | h : n % 8 = 5 ∨ n % 8 = 6 ∨ n % 8 = 7 := by omega
      · exact ⟨.tailPartLo1, h, rfl⟩
      · exact ⟨.tailPartLo2, h, rfl⟩
      · exact ⟨.tailPartLo3, h, rfl⟩

/-- Every pair of the output is some operation's place. -/
theorem exists_stands {n p : Nat} (hp : p < ceilDiv n 4) : ∃ i, Stands n p i := by
  by_cases htail : p < tailPairCount n
  · exact exists_stands_of_tail htail
  · have hT := tailOffset_eq_pairs n
    rw [pairCount_eq] at hp
    by_cases heven : (p - tailPairCount n) % 2 = 0
    · exact ⟨.fullLo, (p - tailPairCount n) / 2, by omega, by omega⟩
    · exact ⟨.fullHi, (p - tailPairCount n) / 2, by omega, by omega⟩

theorem opAt_isSome_iff (n p : Nat) : (opAt n p).isSome = true ↔ p < ceilDiv n 4 := by
  constructor
  · intro h
    by_contra hp
    simp [opAt_of_end_le (Nat.le_of_not_lt hp)] at h
  · intro hp
    obtain ⟨i, hi⟩ := exists_stands hp
    simp [opAt_of_stands hi]

/-- The map has the operation at `p` just where the rules put it. -/
theorem opAt_eq_some_iff (n p : Nat) (i : Instr) : opAt n p = some i ↔ Stands n p i := by
  refine ⟨fun h => ?_, opAt_of_stands⟩
  obtain ⟨j, hj⟩ := exists_stands ((opAt_isSome_iff n p).1 (by simp [h]))
  have hij : some j = some i := (opAt_of_stands hj).symm.trans h
  cases hij
  exact hj

/-! ### A pair at its place (30_encoding.md R62, R64) -/

/-- The low nibble of two nibbles put together is the second. -/
@[simp] theorem lowNibble_append (x v : Nibble) : lowNibble (x ++ v) = v := by
  rw [append_eq_pack]
  revert x v
  decide

theorem encode_of_validBits {i : Instr} {v : Nibble} (h : validBits i = some v) (m d o : Nibble) :
    encode i m d o = some [m ++ d, o ++ v] := by simp [encode, h]

/-- Every operation the map has is a pair operation, with a valid-bits nibble of its own (30_encoding.md R68). -/
theorem exists_validBits_of_stands {n p : Nat} {i : Instr} (h : Stands n p i) : ∃ v, validBits i = some v := by
  cases i
  case encode => exact h.elim
  all_goals exact ⟨_, rfl⟩

/-- A pair at a place of the map decodes to the operation there if it carries that operation's valid bits. -/
theorem decodeAt_of_opAt {n p : Nat} {i : Instr} {a b : Byte} (h : opAt n p = some i)
    (hv : validBits i = some (lowNibble b)) (rest : List Byte) : decodeAt n p (a :: b :: rest) = .ok (i, rest) := by
  simp [decodeAt, h, hv]

/-! ### A whole buffer (30_encoding.md R65, R66) -/

theorem countOf_cons_of_cycles {x : Byte × Byte} {k : Nat} (h : cyclesOf (lowNibble x.2) = some k)
    (rest : List (Byte × Byte)) : countOf (x :: rest) =
      if rest.all (fun p => lowNibble p.2 = 0xF) then .ok (4 * rest.length + k)
      else if rest.all (fun p => (cyclesOf (lowNibble p.2)).isSome) then .error .partialNotFirst
      else .error .neverProduced := by simp [countOf, h]

theorem countOf_neverProduced {ps : List (Byte × Byte)} {x : Byte × Byte} (hx : x ∈ ps)
    (hbad : ¬IsValidBits (lowNibble x.2)) : countOf ps = .error .neverProduced := by
  have hnone := (isValidBits_iff _).not.1 hbad
  have hF : lowNibble x.2 ≠ 0xF := fun h => hbad (.inl h)
  obtain _ | ⟨y, rest⟩ := ps
  · cases hx
  · cases hy : cyclesOf (lowNibble y.2) with
    | none => simp [countOf, hy]
    | some k =>
      have hmem : x ∈ rest := by
        obtain rfl | h := List.mem_cons.1 hx
        · simp [hy] at hnone
        · exact h
      rw [countOf_cons_of_cycles hy, if_neg, if_neg]
      · exact fun h => hnone (List.all_eq_true.1 h x hmem)
      · exact fun h => hF (of_decide_eq_true (List.all_eq_true.1 h x hmem))

section
variable {ps : List (Byte × Byte)} (hv : ∀ x ∈ ps, IsValidBits (lowNibble x.2))
include hv

theorem countOf_partialNotFirst {x : Byte × Byte} (hx : x ∈ ps.tail) (hF : lowNibble x.2 ≠ 0xF) :
    countOf ps = .error .partialNotFirst := by
  obtain _ | ⟨y, rest⟩ := ps
  · cases hx
  · obtain ⟨k, hk⟩ := Option.isSome_iff_exists.1 ((isValidBits_iff _).1 (hv y List.mem_cons_self))
    rw [countOf_cons_of_cycles hk, if_neg, if_pos]
    · exact List.all_eq_true.2 fun z hz => (isValidBits_iff _).1 (hv z (List.mem_cons_of_mem _ hz))
    · exact fun h => hF (of_decide_eq_true (List.all_eq_true.1 h x hx))

theorem countOf_ok (hF : ∀ x ∈ ps.tail, lowNibble x.2 = 0xF) : ∃ n, countOf ps = .ok n := by
  obtain _ | ⟨y, rest⟩ := ps
  · exact ⟨0, rfl⟩
  · obtain ⟨k, hk⟩ := Option.isSome_iff_exists.1 ((isValidBits_iff _).1 (hv y List.mem_cons_self))
    refine ⟨_, (countOf_cons_of_cycles hk rest).trans (if_pos ?_)⟩
    exact List.all_eq_true.2 fun z hz => decide_eq_true (hF z hz)

end

theorem decodeBuffer_of_count_error {buf : List Byte} {ps : List (Byte × Byte)} {e : DecodeError}
    (hp : pairsOf buf = .ok ps) (hc : countOf ps = .error e) : decodeBuffer buf = .error e := by
  simp [decodeBuffer, hp, hc]

theorem decodeBuffer_of_count_ok {buf : List Byte} {ps : List (Byte × Byte)} {n : Nat} (hp : pairsOf buf = .ok ps)
    (hc : countOf ps = .ok n) : ∃ d, decodeBuffer buf = .ok d := by
  simp [decodeBuffer, hp, hc]

/-! ### The obligations -/

/-- Settles O43: the map has pair operations only, and the encoder puts an operation's valid bits where the decoder
reads them; each operation's place is written out. -/
theorem decodeUndoesEncodeAtEveryPlace : Obligations.DecodeUndoesEncodeAtEveryPlace := by
  refine ⟨fun n p i m d o rest h => ?_, fun i h => ?_, fun i cmd h => ?_⟩
  · obtain ⟨v, hv⟩ := exists_validBits_of_stands ((opAt_eq_some_iff n p i).1 h)
    exact ⟨_, encode_of_validBits hv m d o, rfl, decodeAt_of_opAt h (by rw [hv, lowNibble_append]) rest⟩
  · cases i with
    | encode => cases h
    | fullLo => exact ⟨8, 0, rfl⟩
    | fullHi => exact ⟨8, 1, rfl⟩
    | tailFullHi => exact ⟨4, 0, rfl⟩
    | tailPartLo1 => exact ⟨5, 0, rfl⟩
    | tailPartLo2 => exact ⟨6, 0, rfl⟩
    | tailPartLo3 => exact ⟨7, 0, rfl⟩
    | tailPartHi1 => exact ⟨1, 0, rfl⟩
    | tailPartHi2 => exact ⟨2, 0, rfl⟩
    | tailPartHi3 => exact ⟨3, 0, rfl⟩
  · cases i with
    | encode count a b c =>
      cases h
      rfl
    | _ => cases h

/-- Settles O44: each clause is `Stands` for one operation. -/
theorem operationMapCoversTheOutput : Obligations.OperationMapCoversTheOutput := fun n p =>
  have at_iff := opAt_eq_some_iff n p
  ⟨opAt_isSome_iff n p, at_iff .fullLo, at_iff .fullHi, at_iff .tailFullHi, at_iff .tailPartLo1, at_iff .tailPartLo2,
    at_iff .tailPartLo3, at_iff .tailPartHi1, at_iff .tailPartHi2, at_iff .tailPartHi3⟩

/-- Settles O45: an even buffer is the list of its pairs, and `countOf` looks at their valid-bits nibbles. -/
theorem foreignBuffersAreRejected : Obligations.ForeignBuffersAreRejected := by
  intro buf
  obtain ⟨hodd, hp⟩ | ⟨heven, ps, hp, hlen, hvalid⟩ := pairsOf_cases buf
  · exact ⟨fun _ => by simp [decodeBuffer, hp], fun h => by omega, fun h => by omega, fun h => by omega⟩
  · have hall : (∀ p, 2 * p < buf.length → IsValidBits (validAt buf p)) → ∀ x ∈ ps, IsValidBits (lowNibble x.2) := by
      intro hv x hx
      obtain ⟨p, hlt, rfl⟩ := List.getElem_of_mem hx
      exact (hvalid p hlt).symm ▸ hv p (by omega)
    refine ⟨fun h => by omega, ?_, ?_, ?_⟩
    · rintro - ⟨p, hlt, hbad⟩
      exact decodeBuffer_of_count_error hp
        (countOf_neverProduced (List.getElem_mem (show p < ps.length by omega)) (by rwa [hvalid]))
    · rintro - hv ⟨p, h0, hlt, hF⟩
      obtain ⟨p, rfl⟩ := Nat.exists_eq_succ_of_ne_zero (Nat.ne_of_gt h0)
      have hlt' : p < ps.tail.length := by rw [List.length_tail]; omega
      exact decodeBuffer_of_count_error hp
        (countOf_partialNotFirst (hall hv) (List.getElem_mem hlt') (by rwa [List.getElem_tail, hvalid]))
    · intro _ hv hF
      have htail : ∀ x ∈ ps.tail, lowNibble x.2 = 0xF := by
        intro x hx
        obtain ⟨p, hlt, rfl⟩ := List.getElem_of_mem hx
        rw [List.length_tail] at hlt
        rw [List.getElem_tail, hvalid]
        exact hF (p + 1) (by omega) (by omega)
      obtain ⟨n, hn⟩ := countOf_ok (hall hv) htail
      exact decodeBuffer_of_count_ok hp hn

/-- Settles O46: each pair is decoded. -/
theorem writtenOutPairsDecode : Obligations.WrittenOutPairsDecode :=
  ⟨rfl, rfl, rfl, rfl, rfl, rfl, rfl, rfl, rfl, rfl⟩

end Sys2Proof.Machine
end

section
/-! The operations a step runs and the bytes they write (30_encoding.md R62, R67, R69): obligations O26, O47 and O50. -/

namespace Sys2Proof.Machine

/-! ### A pair operation -/

/-- Every pair operation is `writePair` at its base, with the half of the latches it takes and the mask of its row. -/
theorem exec_pair_takes_half {i : Instr} {s : State} {base : Nat} (h : pairBase s i = some base) :
    ∃ hf k v, vmask k = some v ∧ validBits i = some v ∧ (∀ x, nibbleOf x i = some (hf.of x)) ∧
      exec i s = writePair hf k base s := by
  cases i <;> cases h
  case fullLo => exact ⟨.low, 4, 0xF, vmask_four, rfl, fun _ => rfl, rfl⟩
  case fullHi => exact ⟨.high, 4, 0xF, vmask_four, rfl, fun _ => rfl, rfl⟩
  case tailFullHi => exact ⟨.high, 4, 0xF, vmask_four, rfl, fun _ => rfl, rfl⟩
  case tailPartLo1 => exact ⟨.low, 1, 0x8, vmask_one, rfl, fun _ => rfl, rfl⟩
  case tailPartLo2 => exact ⟨.low, 2, 0xC, vmask_two, rfl, fun _ => rfl, rfl⟩
  case tailPartLo3 => exact ⟨.low, 3, 0xE, vmask_three, rfl, fun _ => rfl, rfl⟩
  case tailPartHi1 => exact ⟨.high, 1, 0x8, vmask_one, rfl, fun _ => rfl, rfl⟩
  case tailPartHi2 => exact ⟨.high, 2, 0xC, vmask_two, rfl, fun _ => rfl, rfl⟩
  case tailPartHi3 => exact ⟨.high, 3, 0xE, vmask_three, rfl, fun _ => rfl, rfl⟩

/-- Settles O50: `writePair` puts together the same nibbles as the encoder. -/
theorem pairOpsWriteTheEncodedBytes : Obligations.PairOpsWriteTheEncodedBytes := by
  intro i s base mem hp hb hl h0 h1
  obtain ⟨hf, k, v, hk, hv, hn, he⟩ := exec_pair_takes_half hp
  refine ⟨s.setBuf (pairMem hf v base s mem), hf.of s.m, hf.of s.d, hf.of s.o, hf.of s.m ++ hf.of s.d, hf.of s.o ++ v,
    he.trans (writePair_ok hk hb hl h0 h1), hn _, hn _, hn _, encode_of_validBits hv _ _ _, ?_, ?_⟩
  · rw [cell_setBuf, pairMem_read_A, byteOfA_eq_append]
  · rw [cell_setBuf, pairMem_read_B, byteOfB_eq_append]

/-! ### The operations of a step (41_encode.md R109) -/

/-- A pair operation never ends a transaction: only the buffer changes (40_datapath.md R95). -/
theorem exec_pair_seq {i : Instr} (hi : encodeCommand i = none) {s t : State} (h : exec i s = .next t) :
    t.seq = s.seq := by
  obtain ⟨base, hbase⟩ : ∃ base, pairBase s i = some base := by
    cases i
    case encode => cases hi
    all_goals exact ⟨_, rfl⟩
  obtain ⟨hf, k, v, -, -, he⟩ := exec_pair hbase
  obtain ⟨_, _, _, _, _, _, _, rfl⟩ := writePair_eq_next (he.symm.trans h)
  rfl

theorem runOps_seq {ops : List Instr} (hops : ∀ i ∈ ops, encodeCommand i = none) {s t : State}
    (h : runOps ops s = .next t) : t.seq = s.seq := by
  induction ops generalizing s with
  | nil =>
    cases h
    rfl
  | cons i rest ih =>
    obtain ⟨s1, h1, h2⟩ := andThen_eq_next.1 h
    rw [ih (fun j hj => hops j (List.mem_cons_of_mem _ hj)) h2, exec_pair_seq (hops i List.mem_cons_self) h1]

theorem fullOps_pairs : ∀ i ∈ fullOps, encodeCommand i = none := by decide

theorem tailPartLo_pair {k : Nat} {i : Instr} (h : tailPartLo k = some i) : encodeCommand i = none := by
  unfold tailPartLo at h
  split at h <;> cases h <;> rfl

theorem tailPartHi_pair {k : Nat} {i : Instr} (h : tailPartHi k = some i) : encodeCommand i = none := by
  unfold tailPartHi at h
  split at h <;> cases h <;> rfl

theorem tailOps_pairs {r r4 : Nat} {ops : List Instr} (h : tailOps r r4 = some ops) :
    ∀ i ∈ ops, encodeCommand i = none := by
  unfold tailOps at h
  split at h
  · split at h
    · cases h
      simp [encodeCommand]
    · obtain ⟨i, hi, rfl⟩ := Option.map_eq_some_iff.1 h
      simp [show encodeCommand .tailFullHi = none from rfl, tailPartLo_pair hi]
  · obtain ⟨i, hi, rfl⟩ := Option.map_eq_some_iff.1 h
    simp [tailPartHi_pair hi]

theorem groupOutcome_andThen_eq_ok {x : GroupOutcome} {f : State → GroupOutcome} {t : State} :
    x.andThen f = .ok t ↔ ∃ s, x = .ok s ∧ f s = .ok t := by
  cases x <;> simp

theorem readInto_readPart {g : Signal} {s t : State} (h : readInto g s = .ok t) : ReadPart s t := by
  obtain ⟨s', hr, hp, _⟩ | ⟨e, hr, _⟩ := readInto_cases g s <;> rw [hr] at h <;> cases h
  exact hp

/-- The reads of a step write the latches and move the cursors, whatever the cursors are bound to. -/
theorem readGroup_readPart {s t : State} (h : readGroup s = .ok t) : ReadPart s t := by
  obtain ⟨s2, h12, h3⟩ := groupOutcome_andThen_eq_ok.1 h
  obtain ⟨s1, h1, h2⟩ := groupOutcome_andThen_eq_ok.1 h12
  exact ((readInto_readPart h1).trans (readInto_readPart h2)).trans (readInto_readPart h3)

/-- Where nothing ends in ERROR, what follows is always run. -/
theorem unlessError_eq_andThen {x : Result} (h : ∀ t, x = .next t → t.seq ≠ .error) (f : State → Result) :
    unlessError x f = andThen x f := by
  cases x with
  | next t => exact unlessError_of_ne (h t rfl) f
  | fault e => rfl
  | refused e => rfl

/-- A step in a transaction whose reads succeed runs its pair operations, then what follows them. -/
theorem unlessError_readThen_ops {ops : List Instr} (hops : ∀ i ∈ ops, encodeCommand i = none) {s s1 : State}
    (hs : s.seq ≠ .error) (hr : readGroup s = .ok s1) (f : State → Result) :
    unlessError (readThen (runSelected (some ops)) s) f = andThen (runOps ops s1) f := by
  have hreads : readThen (runSelected (some ops)) s = runOps ops s1 := by simp [readThen, hr, runSelected]
  rw [hreads, unlessError_eq_andThen]
  intro t ht
  rwa [runOps_seq hops ht, (readGroup_readPart hr).seq]

/-- Settles O26: a call by the definition of its turn; a step by its reads and the pair operations the map selects, of
which none ends the transaction. -/
theorem stepRunsTheSelectedOperations : Obligations.StepRunsTheSelectedOperations := by
  refine ⟨fun s cmd rest h => step_of_schedule h, fun s s' s1 ha hs hr => ?_, fun s s' s1 ops ha hs hr hops => ?_⟩
  · have hs' : s'.seq = .full := by rw [acts_eq ha, ← hs]
    rw [step_of_acts ha, encoderStep, hs', ← andThen_assoc]
    show fullStep s' = _
    rw [fullStep, unlessError_readThen_ops fullOps_pairs (by simp [hs']) hr, fullOps, runOps_pair]
  · have hs' : s'.seq = .tail := by rw [acts_eq ha, ← hs]
    have hops' : tailOps s'.r s'.r4 = some ops := by rw [acts_eq ha, ← hops]
    rw [step_of_acts ha, encoderStep, hs']
    show tailStep s' = _
    rw [tailStep, hops', unlessError_readThen_ops (tailOps_pairs hops) (by simp [hs']) hr]

/-! ### A table word placed for the next step (log entry 9) -/

theorem highNibble_append_lowNibble : ∀ x : Byte, (highNibble x ++ lowNibble x : Byte) = x := by decide

/-- The stream of one element whose high nibble is `n`, as `loadPair` has it. -/
def nibbleStream (n : Nibble) : Stream := ⟨[], [Int.ofNat (16 * n.toNat)]⟩

theorem headError_nibbleStream : ∀ n : Nibble, headError (nibbleStream n) = none := by decide

theorem hi_headByte_nibbleStream : ∀ n : Nibble, hi (headByte (nibbleStream n)) = n := by decide

/-- Which valid-bits nibble marks how many cycles (30_encoding.md R64). -/
theorem cyclesOf_eq_some {v : Nibble} {k : Nat} (h : cyclesOf v = some k) :
    k = 1 ∧ v = 0x8 ∨ k = 2 ∧ v = 0xC ∨ k = 3 ∧ v = 0xE ∨ k = 4 ∧ v = 0xF := by
  unfold cyclesOf at h
  split_ifs at h <;> cases h <;> simp [*]

/-- A word read as an operation carries valid bits. -/
theorem exists_cyclesOf_of_decodeTableWord {w : Nat} {i : Instr} (h : decodeTableWord 16 w = some i) :
    ∃ k, cyclesOf (lowNibble (byteB w)) = some k := by
  rw [← Option.isSome_iff_exists, ← isValidBits_iff]
  by_contra hbad
  have hp : pairsOf [byteA w, byteB w] = .ok [(byteA w, byteB w)] := rfl
  have hc := countOf_neverProduced (ps := [(byteA w, byteB w)]) List.mem_cons_self hbad
  simp [decodeTableWord, decodeBuffer_of_count_error hp hc] at h

section
variable {w k : Nat} {s : State} (hk : cyclesOf (lowNibble (byteB w)) = some k)
include hk

theorem withFetchWord_eq_loadPair {i : Instr} (h : decodeTableWord 16 w = some i) :
    s.withFetchWord 16 w = loadPair w k s := by simp [State.withFetchWord, h, hk]

/-- The state before a pair's only step is one that a transaction can reach. -/
theorem loadPair_invariant : Invariant (loadPair w k s) := by
  have hcases := cyclesOf_eq_some hk
  have hk4 : 1 ≤ k ∧ k ≤ 4 := by omega
  have hT : tailOffset k = 2 := by unfold tailOffset; split <;> split <;> omega
  have hL : outLen k = 2 := by unfold outLen ceilDiv; omega
  have hregs : CountRegs (loadPair w k s) :=
    ⟨by show 0 = k / 8; omega, by show k = k % 8; omega, rfl, hT.symm, hL.symm⟩
  refine ⟨(seqFields_tail rfl).2 ⟨rfl, rfl, hregs, by show k ≠ 0; omega, fun a => ?_⟩, fun _ h => (by cases h; rfl),
    fun _ => rfl⟩
  rw [cell_of_buf (mem := []) rfl, Memory.read_nil]
  exact ⟨fun h => (by cases h), fun ⟨hle, hlt⟩ => absurd hlt (Nat.not_lt.2 hle)⟩

end

/-- The bytes of a tail of one pair: the high nibbles of the latches, and the valid bits of its cycles. -/
theorem tailByte_of_one_pair {v : Nibble} {k : Nat} (hk : cyclesOf v = some k) (m d o : Byte) :
    tailByte k (k % 4) m d o 0 = hi m ++ hi d ∧ tailByte k (k % 4) m d o 1 = hi o ++ v := by
  have hA := byteOfA_eq_append .high m d
  have hB := byteOfB_eq_append .high o v
  obtain ⟨rfl, rfl⟩ | ⟨rfl, rfl⟩ | ⟨rfl, rfl⟩ | ⟨rfl, rfl⟩ := cyclesOf_eq_some hk <;> exact ⟨hA, hB⟩

/-- A TAIL step of a transaction whose whole output is one pair delivers the tail's two bytes. -/
theorem tailStep_delivers_one_pair {s : State} (hi : Invariant s) (hs : s.seq = .tail) (he : groupError s = none)
    (hT : s.T = 2) (hL : s.L = 2) :
    ∃ t, tailStep s = .next t ∧ t.seq = .done ∧ t.schedule = s.schedule ∧
      result t = some [tailByte s.r s.r4 s.afterReads.m s.afterReads.d s.afterReads.o 0,
        tailByte s.r s.r4 s.afterReads.m s.afterReads.d s.afterReads.o 1] := by
  obtain ⟨_, mem, mem', hb, hr, hwf, hread⟩ | ⟨e, _, _, he', _⟩ := tailStep_cases hi hs
  · obtain ⟨buf, hres, hlen, hcell⟩ := done_result (tailStep_invariant hi hs hb hwf _ hread) rfl
    change buf.length = s.L at hlen
    obtain ⟨x, y, rfl⟩ := List.length_eq_two.1 (hlen.trans hL)
    have hx := (hcell 0 (show 0 < s.L by omega)).trans (hread 0)
    have hy := (hcell 1 (show 1 < s.L by omega)).trans (hread 1)
    rw [if_pos (by omega)] at hx hy
    cases hx
    cases hy
    exact ⟨_, hr, rfl, rfl, hres⟩
  · rw [he] at he'
    cases he'

/-- The only step of the transaction placed for a word delivers the word's two bytes. -/
theorem step_loadPair {w k : Nat} (hk : cyclesOf (lowNibble (byteB w)) = some k) (s : State) :
    ∃ t, step (loadPair w k s) = .next t ∧ t.seq = .done ∧ result t = some [byteA w, byteB w] ∧
      t.schedule = s.schedule := by
  have hacts : EncoderActs (loadPair w k s) { loadPair w k s with schedule := s.schedule } := .inr ⟨_, rfl, rfl⟩
  have hgroup : groupError { loadPair w k s with schedule := s.schedule } = none := by
    rw [groupError_none_iff]
    intro g
    cases g <;> exact headError_nibbleStream _
  obtain ⟨t, hr, hd, hsched, hres⟩ :=
    tailStep_delivers_one_pair (acts_invariant hacts (loadPair_invariant hk)) rfl hgroup rfl rfl
  refine ⟨t, (step_of_acts hacts).trans hr, hd, hres.trans ?_, hsched⟩
  obtain ⟨hA, hB⟩ := tailByte_of_one_pair hk (headByte (nibbleStream (highNibble (byteA w))))
    (headByte (nibbleStream (lowNibble (byteA w)))) (headByte (nibbleStream (highNibble (byteB w))))
  simp only [hi_headByte_nibbleStream, highNibble_append_lowNibble] at hA hB
  exact congrArg₂ (fun x y => some [x, y]) hA hB

/-- Settles O47: a word read as an operation has valid bits, and the transaction placed for it is in the invariant before
its TAIL step. -/
theorem fetchedPairIsDelivered : Obligations.FetchedPairIsDelivered := by
  intro s w i _ h
  obtain ⟨k, hk⟩ := exists_cyclesOf_of_decodeTableWord h
  rw [withFetchWord_eq_loadPair hk h]
  exact step_loadPair hk s

end Sys2Proof.Machine
end

section
/-! The datapath (40_datapath.md): the extractor, the shifter, the mask generator and the packer, and what each pair
operation writes: obligations O6 to O14. -/

namespace Sys2Proof.Machine

/-! ### The extractor (R80) -/

/-- Masking with 0x0F keeps the remainder by 16. -/
theorem toNat_and_low (x : Byte) : (x &&& 0x0F#8).toNat = x.toNat % 16 :=
  Nat.and_two_pow_sub_one_eq_mod x.toNat 4

theorem toNat_lo (x : Byte) : (lo x).toNat = x.toNat % 16 := by
  rw [lo, BitVec.toNat_setWidth, toNat_and_low, Nat.mod_mod]

theorem toNat_hi (x : Byte) : (hi x).toNat = x.toNat / 16 := by
  rw [hi, BitVec.toNat_setWidth, BitVec.toNat_ushiftRight, Nat.shiftRight_eq_div_pow]
  omega

theorem lo_eq_lowNibble (x : Byte) : lo x = lowNibble x := by
  apply BitVec.eq_of_toNat_eq
  simp [toNat_lo, lowNibble]

theorem hi_eq_highNibble (x : Byte) : hi x = highNibble x := by
  ext j
  simp [hi, highNibble]

theorem zeroExtend_lo (x : Byte) : (lo x).zeroExtend 8 = x &&& 0x0F#8 := by
  apply BitVec.eq_of_toNat_eq
  rw [BitVec.toNat_setWidth, toNat_lo, toNat_and_low]
  omega

theorem zeroExtend_hi (x : Byte) : (hi x).zeroExtend 8 = x >>> 4 := by
  apply BitVec.eq_of_toNat_eq
  rw [BitVec.toNat_setWidth, toNat_hi, BitVec.toNat_ushiftRight, Nat.shiftRight_eq_div_pow]
  omega

theorem getLsbD_hi (x : Byte) {j : Nat} (hj : j < 4) : (hi x).getLsbD j = x.getLsbD (4 + j) := by
  simp [hi, hj]

theorem getLsbD_lo (x : Byte) {j : Nat} (hj : j < 4) : (lo x).getLsbD j = x.getLsbD j := by
  simp [lo_eq_lowNibble, lowNibble, hj]

/-- The first byte of a stream holds cycles 0 to 7 from its top bit down (00_scope.md R14). -/
theorem cycleBit_singleton (x : Byte) {j : Nat} (hj : j < 8) : cycleBit [x] j = x.getLsbD (7 - j) := by
  simp [cycleBit, Nat.div_eq_of_lt hj, Nat.mod_eq_of_lt hj]

/-- Settles O6: each nibble is a field of the byte, and cycle `j` stands at bit `7 - j` of the byte. -/
theorem extractorTakesTheTwoNibbles : Obligations.ExtractorTakesTheTwoNibbles := by
  intro x
  refine ⟨⟨hi_eq_highNibble x, zeroExtend_hi x⟩, ⟨lo_eq_lowNibble x, zeroExtend_lo x⟩, fun j hj => ⟨?_, ?_⟩⟩
  · rw [getLsbD_hi x (by omega), cycleBit_singleton x (by omega), show 4 + (3 - j) = 7 - j by omega]
  · rw [getLsbD_lo x (by omega), cycleBit_singleton x (by omega), show 7 - (4 + j) = 3 - j by omega]

/-! ### The packer (R84) -/

@[simp] theorem hi_pack (h l : Nibble) : hi (pack h l) = h := by
  revert h l
  decide

@[simp] theorem lo_pack (h l : Nibble) : lo (pack h l) = l := by
  rw [lo_eq_lowNibble, ← append_eq_pack, lowNibble_append]

/-- The two halves do not overlap, so their bitwise or is their sum. -/
theorem toNat_pack (h l : Nibble) : (pack h l).toNat = 16 * h.toNat + l.toNat := by
  rw [← append_eq_pack, BitVec.toNat_append, ← Nat.shiftLeft_add_eq_or_of_lt l.isLt, Nat.shiftLeft_eq, Nat.mul_comm]

theorem byteOfA_eq_pack (h : Half) (m d : Byte) : byteOfA h m d = pack (h.of m) (h.of d) :=
  (byteOfA_eq_append h m d).trans (append_eq_pack _ _)

theorem byteOfB_eq_pack (h : Half) (o : Byte) (v : Nibble) : byteOfB h o v = pack (h.of o) v :=
  (byteOfB_eq_append h o v).trans (append_eq_pack _ _)

/-- Settles O9: the halves of a PACK are read back, and bytes A and B are PACKs for either half of the latches. -/
theorem packedBytesHoldBothNibbles : Obligations.PackedBytesHoldBothNibbles :=
  ⟨fun h l => ⟨hi_pack h l, lo_pack h l, toNat_pack h l⟩,
    fun m d => ⟨byteOfA_eq_pack .high m d, byteOfA_eq_pack .low m d⟩,
    fun o v => ⟨byteOfB_eq_pack .high o v, byteOfB_eq_pack .low o v⟩⟩

/-! ### The shifter (R81): each placement packs the nibble with zeros -/

theorem loToLow_eq_pack (x : Byte) : loToLow x = pack 0 (lo x) := by
  simp [loToLow, pack, zeroExtend_lo]

theorem loToHigh_eq_pack (x : Byte) : loToHigh x = pack (lo x) 0 := by
  simp [loToHigh, pack, zeroExtend_lo]

theorem hiToLow_eq_pack (x : Byte) : hiToLow x = pack 0 (hi x) := by
  simp [hiToLow, pack, zeroExtend_hi]

/-- Byte B of the high half with no valid bit is the placement alone. -/
theorem hiToHigh_eq_pack (x : Byte) : hiToHigh x = pack (hi x) 0 := by
  simpa [byteOfB, Half.of] using byteOfB_eq_pack .high x 0

/-- Settles O7: the halves of each placement's PACK. -/
theorem shifterPlacesEachNibbleWhole : Obligations.ShifterPlacesEachNibbleWhole := by
  intro x
  rw [hiToHigh_eq_pack, hiToLow_eq_pack, loToHigh_eq_pack, loToLow_eq_pack]
  exact ⟨⟨hi_pack _ _, lo_pack _ _⟩, ⟨hi_pack _ _, lo_pack _ _⟩, ⟨hi_pack _ _, lo_pack _ _⟩, hi_pack _ _, lo_pack _ _⟩

/-! ### The mask generator (R82, R83) -/

theorem vmask_eq_none {k : Nat} (h : ¬(1 ≤ k ∧ k ≤ 4)) : vmask k = none := if_neg h

/-- Settles O8: the four masks one by one, and no other. -/
theorem maskHasTheLeadingOnes : Obligations.MaskHasTheLeadingOnes := by
  refine ⟨fun k h1 h4 => ?_, fun k => vmask_eq_none⟩
  obtain rfl | rfl | rfl | rfl : k = 1 ∨ k = 2 ∨ k = 3 ∨ k = 4 := by omega
  · exact ⟨_, vmask_one, by decide⟩
  · exact ⟨_, vmask_two, by decide⟩
  · exact ⟨_, vmask_three, by decide⟩
  · exact ⟨_, vmask_four, by decide⟩

/-! ### The pair operations (R90 to R95) -/

/-- An operation that is `writePair` everywhere writes byte A and byte B of its half at its base, and nothing else. -/
theorem writesPair_of_writePair {i : Instr} {h : Half} {k : Nat} {v : Nibble} {base : State → Nat}
    (hk : vmask k = some v) (hexec : ∀ s, exec i s = writePair h k (base s) s) :
    WritesPair i base (fun s => byteOfA h s.m s.d) (fun s => byteOfB h s.o v) := by
  intro s mem hb hl h0 h1
  exact ⟨pairMem h v (base s) s mem, (hexec s).trans (writePair_ok hk hb hl h0 h1), pairMem_read_A h v _ s mem,
    pairMem_read_B h v _ s mem, fun _ => pairMem_read_other h v _ s mem, pairMem_wf h v _ s mem⟩

/-- Settles O10: FULL_LO is `writePair` of the low nibbles with four cycles. -/
theorem fullLoWritesTheLowNibbles : Obligations.FullLoWritesTheLowNibbles :=
  writesPair_of_writePair (h := .low) vmask_four fun _ => rfl

/-- Settles O11: FULL_HI is `writePair` of the high nibbles with four cycles. -/
theorem fullHiWritesTheHighNibbles : Obligations.FullHiWritesTheHighNibbles :=
  writesPair_of_writePair (h := .high) vmask_four fun _ => rfl

/-- Settles O12: TAIL_FULL_HI is FULL_HI at another base. -/
theorem tailFullHiWritesTheHighNibbles : Obligations.TailFullHiWritesTheHighNibbles :=
  writesPair_of_writePair (h := .high) vmask_four fun _ => rfl

/-- Settles O13: each row is `writePair` of the low nibbles with its own mask. -/
theorem tailPartLoWritesTheLowNibbles : Obligations.TailPartLoWritesTheLowNibbles :=
  ⟨writesPair_of_writePair (h := .low) vmask_one fun _ => rfl,
    writesPair_of_writePair (h := .low) vmask_two fun _ => rfl,
    writesPair_of_writePair (h := .low) vmask_three fun _ => rfl⟩

/-- Settles O14: each row is `writePair` of the high nibbles with its own mask. -/
theorem tailPartHiWritesTheHighNibbles : Obligations.TailPartHiWritesTheHighNibbles :=
  ⟨writesPair_of_writePair (h := .high) vmask_one fun _ => rfl,
    writesPair_of_writePair (h := .high) vmask_two fun _ => rfl,
    writesPair_of_writePair (h := .high) vmask_three fun _ => rfl⟩

end Sys2Proof.Machine
end

section
/-! An accepted start, a FULL step and a TAIL step, field by field (41_encode.md R101 to R109): obligations O25, O27,
O28 and O29. -/

namespace Sys2Proof.Machine

/-! ### An accepted start -/

theorem firstSeq_eq (n : Nat) : firstSeq n = if 0 < n / 8 then .full else if n % 8 ≠ 0 then .tail else .done := by
  simp only [firstSeq, ne_eq, ite_not]

/-- Settles O25: the state of the model's start, `started`, written out. -/
theorem acceptedStartLatchesTheCount : Obligations.AcceptedStartLatchesTheCount := by
  intro s cmd n rest hs hb hd hn
  have hstart : step s = .next (started n cmd.tms cmd.tdi cmd.tdom { s with schedule := rest }) := by
    rw [step_of_schedule hs, takeTurn, hn]
    exact startTransaction_ok (s := { s with schedule := rest }) hb hd n
  refine ⟨_, hstart, (started_regs n _ _ _ _).L_eq, fun _ => rfl, ?_⟩
  rw [← firstSeq_eq]
  rfl

/-! ### tailOffset (R102) -/

theorem tailOps_length {n : Nat} (h : n % 8 ≠ 0) :
    ∃ ops, tailOps (n % 8) (n % 4) = some ops ∧ ops.length = tailPairCount n := by
  by_cases hlt : n % 8 < 4
  · rw [tailPairCount_of_lt hlt, if_pos (by omega), tailOps, if_neg (by omega)]
    obtain h4 | h4 | h4 : n % 4 = 1 ∨ n % 4 = 2 ∨ n % 4 = 3 := by omega
    all_goals
      rw [h4]
      exact ⟨_, rfl, rfl⟩
  · rw [tailPairCount_of_ge (by omega), tailOps, if_pos (by omega)]
    obtain h4 | h4 | h4 | h4 : n % 4 = 0 ∨ n % 4 = 1 ∨ n % 4 = 2 ∨ n % 4 = 3 := by omega
    all_goals
      rw [h4]
      exact ⟨_, rfl, rfl⟩

/-- Settles O29: by the three kinds of tail, and by the operations the map names for each. -/
theorem tailOffsetByRemainder : Obligations.TailOffsetByRemainder := by
  refine fun n => ⟨rfl, tailOffset_zero, fun h1 h4 => ?_, fun h5 => tailOffset_four (by omega) (by omega),
    tailOffset_eq_pairs n, fun h => ?_⟩
  · by_cases h : n % 8 = 4
    · exact tailOffset_two_full (by omega) (by omega)
    · exact tailOffset_two_part (by omega) (by omega)
  · obtain ⟨ops, hops, hlen⟩ := tailOps_length h
    exact ⟨ops, hops, by rw [hlen, tailOffset_eq_pairs]⟩

/-! ### A FULL step -/

theorem finish_eq {s : State} (he : s.err = 0) : finish s = { s with seq := .done } := by rw [finish, ← he]

/-- Where a FULL step goes on (R109): only the group index and the sequencer state change. -/
theorem advance_eq {s : State} (he : s.err = 0) : ∃ i q, advance s = { s with i := i, seq := q } ∧
    (0 < s.i → q = s.seq ∧ i = s.i - 1) ∧ (s.i = 0 → i = 0 ∧ q = if s.r ≠ 0 then .tail else .done) := by
  unfold advance
  by_cases hi : 0 < s.i
  · rw [if_pos hi]
    exact ⟨s.i - 1, s.seq, rfl, fun _ => ⟨rfl, rfl⟩, fun h => by omega⟩
  · rw [if_neg hi]
    by_cases hr : s.r = 0
    · rw [if_pos hr, finish_eq he]
      exact ⟨s.i, .done, rfl, fun h => absurd h hi, fun h => ⟨h, (if_neg (not_not_intro hr)).symm⟩⟩
    · rw [if_neg hr]
      exact ⟨s.i, .tail, rfl, fun h => absurd h hi, fun h => ⟨h, (if_pos hr).symm⟩⟩

theorem fullMem_read_group (s : State) (mem : Memory) {k : Nat} (hk : k < 4) :
    (fullMem s mem).read (s.T + 4 * s.i + k) = some (fullByte s.m s.d s.o k) := by
  rw [fullMem_read, if_pos (by omega), Nat.add_sub_cancel_left]

theorem fullMem_read_outside (s : State) (mem : Memory) {a : Nat}
    (ha : a < s.T + 4 * s.i ∨ s.T + 4 * s.i + 4 ≤ a) : (fullMem s mem).read a = mem.read a := by
  rw [fullMem_read, if_neg (by omega)]

theorem exists_schedule_of_acts {s s' : State} (h : EncoderActs s s') : ∃ l, s' = { s with schedule := l } :=
  ⟨_, acts_eq h⟩

/-- Settles O27: the group's four cells are read off `fullMem`, and the way on is `advance`. -/
theorem fullStepWritesItsGroup : Obligations.FullStepWritesItsGroup := by
  intro s s' hi ha hs he
  have hi' := acts_invariant ha hi
  have herr := ((seqFields_full hs).1 hi.fields).1
  rw [step_of_acts ha]
  obtain ⟨l, rfl⟩ := exists_schedule_of_acts ha
  have hstep : encoderStep { s with schedule := l } = fullStep { s with schedule := l } := by
    simp only [encoderStep, hs]
  obtain ⟨_, mem, hb, hr⟩ | ⟨e, _, _, he', _⟩ := fullStep_cases hi' hs
  · rw [hstep, hr]
    have hgroup := fun k => fullMem_read_group (k := k) (State.afterReads { s with schedule := l }) mem
    have hother := fun a => fullMem_read_outside (a := a) (State.afterReads { s with schedule := l }) mem
    generalize fullMem (State.afterReads { s with schedule := l }) mem = mem' at *
    obtain ⟨i, q, hadv, hnext, hlast⟩ :=
      advance_eq (s := (State.afterReads { s with schedule := l }).setBuf mem') herr
    rw [hadv]
    exact ⟨_, rfl, rfl, rfl, rfl, rfl, hgroup 0 (by decide), hgroup 1 (by decide), hgroup 2 (by decide),
      hgroup 3 (by decide), fun a h => (hother a h).trans (cell_of_buf hb a).symm,
      fun h => ⟨(hnext h).1.trans hs, (hnext h).2⟩, hlast, rfl⟩
  · exact absurd (he.symm.trans he') (by simp)

/-! ### A TAIL step: the tail's bytes by the remainder (R107) -/

section
variable {r r4 : Nat} (m d o : Byte)

theorem tailByte_part (h : r < 4) : tailByte r r4 m d o 0 = byteOfA .high m d ∧
    tailByte r r4 m d o 1 = byteOfB .high o (tailMask r4) := by
  simp [tailByte, h]

theorem tailByte_full (h : 4 ≤ r) : tailByte r 0 m d o 0 = byteOfA .high m d ∧
    tailByte r 0 m d o 1 = byteOfB .high o 0xF := by
  simp [tailByte, Nat.not_lt.2 h]

theorem tailByte_long (h : 4 ≤ r) (h4 : r4 ≠ 0) : tailByte r r4 m d o 0 = byteOfA .low m d ∧
    tailByte r r4 m d o 1 = byteOfB .low o (tailMask r4) ∧ tailByte r r4 m d o 2 = byteOfA .high m d ∧
    tailByte r r4 m d o 3 = byteOfB .high o 0xF := by
  simp [tailByte, Nat.not_lt.2 h, h4]

end

theorem vmask_eq_tailMask {k : Nat} (h : 1 ≤ k ∧ k ≤ 4) : vmask k = some (tailMask k) := vmask_isSome h

/-- Settles O28: the cells below `T` by the three kinds of tail. -/
theorem tailStepWritesTheTail : Obligations.TailStepWritesTheTail := by
  intro s s' hi ha hs he
  have hi' := acts_invariant ha hi
  obtain ⟨herr, _, hc, hr0, _⟩ := (seqFields_tail hs).1 hi.fields
  have hcr := hc.r
  have hcr4 := hc.r4
  rw [step_of_acts ha]
  obtain ⟨l, rfl⟩ := exists_schedule_of_acts ha
  have hstep : encoderStep { s with schedule := l } = tailStep { s with schedule := l } := by
    simp only [encoderStep, hs]
  obtain ⟨_, mem, mem', hb, hr, _, hread⟩ | ⟨e, _, _, he', _⟩ := tailStep_cases hi' hs
  · rw [hstep, hr, finish_eq (by exact herr)]
    have hT := hc.T
    have hother : ∀ a, s.T ≤ a → mem'.read a = State.cell { s with schedule := l } a := fun a h =>
      (hread a).trans ((if_neg (Nat.not_lt.2 h)).trans (cell_of_buf hb a).symm)
    have htail : ∀ a, a < s.T → mem'.read a = some (tailByte s.r s.r4 _ _ _ a) := fun a h =>
      (hread a).trans (if_pos h)
    refine ⟨_, rfl, rfl, rfl, rfl, rfl, rfl, fun hlt => ?_, fun h4 => ?_, fun hgt => ?_, hother, rfl⟩
    · rw [tailOffset_two_part (by omega) (by omega)] at hT
      rw [show s.r4 = s.r by omega] at htail
      obtain ⟨h0, h1⟩ := tailByte_part (r4 := s.r) _ _ _ hlt
      exact ⟨hT, _, vmask_eq_tailMask (by omega), (htail 0 (by omega)).trans (congrArg _ h0),
        (htail 1 (by omega)).trans (congrArg _ h1)⟩
    · rw [tailOffset_two_full (by omega) (by omega)] at hT
      rw [show s.r4 = 0 by omega] at htail
      obtain ⟨h0, h1⟩ := tailByte_full _ _ _ (Nat.le_of_eq h4.symm)
      exact ⟨hT, (htail 0 (by omega)).trans (congrArg _ h0), (htail 1 (by omega)).trans (congrArg _ h1)⟩
    · rw [tailOffset_four (by omega) (by omega)] at hT
      rw [show s.r4 = s.r - 4 by omega] at htail
      obtain ⟨h0, h1, h2, h3⟩ := tailByte_long (r4 := s.r - 4) _ _ _ (Nat.le_of_lt hgt) (by omega)
      exact ⟨hT, _, vmask_eq_tailMask (by omega), (htail 0 (by omega)).trans (congrArg _ h0),
        (htail 1 (by omega)).trans (congrArg _ h1), (htail 2 (by omega)).trans (congrArg _ h2),
        (htail 3 (by omega)).trans (congrArg _ h3)⟩
  · exact absurd (he.symm.trans he') (by simp)

end Sys2Proof.Machine
end

section
/-! The step-level sequencer and the atomic ENCODE (41_encode.md R100, R109): obligations O34 and O36. The two are
compared through `atomicRest`, what ENCODE still does from a state inside a transaction: each encoder step leaves the
same `atomicRest` to do. They differ in the sequencer state and in the schedule, which the reads and the pair operations
do not look at (`State.reframe`). -/

namespace Sys2Proof.Machine

/-! ### Neither the reads nor the pair operations look at the sequencer state or the schedule -/

/-- The same state with its sequencer state and its schedule replaced. -/
def State.reframe (σ : Seq → Seq) (τ : List Turn → List Turn) (s : State) : State :=
  { s with seq := σ s.seq, schedule := τ s.schedule }

/-- The same reads, on the reframed state. -/
def GroupOutcome.reframe (σ : Seq → Seq) (τ : List Turn → List Turn) : GroupOutcome → GroupOutcome
  | .ok s => .ok (s.reframe σ τ)
  | .raised e g s => .raised e g (s.reframe σ τ)

/-- `f` answers the same for a reframed state, reframed. -/
def FrameFree (σ : Seq → Seq) (τ : List Turn → List Turn) (f : State → Result) : Prop :=
  ∀ s, f (s.reframe σ τ) = andThen (f s) fun t => .next (t.reframe σ τ)

theorem andThen_congr {x : Result} {f g : State → Result} (h : ∀ t, x = .next t → f t = g t) :
    andThen x f = andThen x g := by
  cases x with
  | next t => exact h t rfl
  | fault e => rfl
  | refused e => rfl

section
variable {σ : Seq → Seq} {τ : List Turn → List Turn}

theorem FrameFree.andThen {f g : State → Result} (hf : FrameFree σ τ f) (hg : FrameFree σ τ g) :
    FrameFree σ τ fun s => andThen (f s) g := by
  intro s
  dsimp only
  rw [hf s, andThen_assoc, andThen_assoc]
  exact andThen_congr fun t _ => hg t

theorem frameFree_next {f : State → State} (h : ∀ s : State, f (s.reframe σ τ) = (f s).reframe σ τ) :
    FrameFree σ τ fun s => .next (f s) := fun s => congrArg _ (h s)

theorem memWrite_frameFree (off : Nat) (v : Byte) : FrameFree σ τ (memWrite off v) := by
  intro s
  have hb : (s.reframe σ τ).obuf = s.obuf := rfl
  have hL : (s.reframe σ τ).L = s.L := rfl
  simp only [memWrite, hb, hL]
  split
  · rfl
  · split
    · rfl
    · split <;> rfl

theorem writePair_frameFree (h : Half) (k base : Nat) : FrameFree σ τ (writePair h k base) := by
  intro s
  unfold writePair
  cases vmask k with
  | none => rfl
  | some v => exact (memWrite_frameFree base _).andThen (memWrite_frameFree (base + 1) _) s

theorem fullPairs_frameFree : FrameFree σ τ fullPairs :=
  FrameFree.andThen (fun s => writePair_frameFree .low 4 (fullLoBase s) s)
    fun s => writePair_frameFree .high 4 (fullHiBase s) s

theorem partLoFor_frameFree (k : Nat) : FrameFree σ τ (partLoFor k) := by
  intro s
  unfold partLoFor
  split
  iterate 3 exact writePair_frameFree _ _ _ s
  rfl

theorem partHiFor_frameFree (k : Nat) : FrameFree σ τ (partHiFor k) := by
  intro s
  unfold partHiFor
  split
  iterate 3 exact writePair_frameFree _ _ _ s
  rfl

theorem tailPairs_frameFree : FrameFree σ τ tailPairs := by
  have hrest : FrameFree σ τ fun s' => if s'.r4 = 0 then .next s' else partLoFor s'.r4 s' := by
    intro s
    have hr4 : (s.reframe σ τ).r4 = s.r4 := rfl
    dsimp only
    rw [hr4]
    split
    · rfl
    · exact partLoFor_frameFree _ s
  intro s
  have hr : (s.reframe σ τ).r = s.r := rfl
  unfold tailPairs
  rw [hr]
  split
  · exact FrameFree.andThen (fun s => writePair_frameFree .high 4 (tailFullHiBase s) s) hrest s
  · exact partHiFor_frameFree _ s

theorem readInto_reframe (g : Signal) (s : State) :
    readInto g (s.reframe σ τ) = (readInto g s).reframe σ τ := by
  have hst : (s.reframe σ τ).streamOf g = s.streamOf g := by cases g <;> rfl
  cases h : headError (s.streamOf g) with
  | none =>
    rw [readInto_ok h, readInto_ok (by rw [hst, h]), hst]
    cases g <;> rfl
  | some e =>
    have h' : headError ((s.reframe σ τ).streamOf g) = some e := by rw [hst, h]
    simp only [readInto, streamRead_raised h, streamRead_raised h', GroupOutcome.reframe]

theorem GroupOutcome.andThen_reframe {f : State → GroupOutcome}
    (hf : ∀ s : State, f (s.reframe σ τ) = (f s).reframe σ τ) (x : GroupOutcome) :
    (x.reframe σ τ).andThen f = (x.andThen f).reframe σ τ := by
  cases x with
  | ok s => exact hf s
  | raised e g s => rfl

theorem readGroup_reframe (s : State) : readGroup (s.reframe σ τ) = (readGroup s).reframe σ τ := by
  rw [readGroup, readInto_reframe, GroupOutcome.andThen_reframe (readInto_reframe .tdi),
    GroupOutcome.andThen_reframe (readInto_reframe .tdom), readGroup]

/-- An error puts the sequencer into ERROR wherever it was. -/
theorem readThen_frameFree {f : State → Result} (hf : FrameFree σ τ f) (he : σ .error = .error) :
    FrameFree σ τ (readThen f) := by
  intro s
  unfold readThen
  rw [readGroup_reframe]
  cases readGroup s with
  | ok u => exact hf u
  | raised e g u =>
    show Host.Outcome.next _ = Host.Outcome.next _
    simp only [raise, State.reframe, State.scatterCursors, he]

end

/-- What does not look at the sequencer state does not change it. -/
theorem FrameFree.seq_eq {f : State → Result} (hf : ∀ q, FrameFree (fun _ => q) id f) {s t : State}
    (h : f s = .next t) : t.seq = s.seq := by
  have hs : f s = Machine.andThen (f s) fun u => .next (u.reframe (fun _ => s.seq) id) := hf s.seq s
  rw [h] at hs
  injection hs with hs
  rw [hs]
  rfl

/-! ### The encoder's step does not look at the schedule -/

theorem unlessError_frameFree {τ : List Turn → List Turn} {f k : State → Result} (hf : FrameFree id τ f)
    (hk : FrameFree id τ k) : FrameFree id τ fun s => unlessError (f s) k := by
  refine hf.andThen fun s => ?_
  have hs : (s.reframe id τ).seq = s.seq := rfl
  rw [hs]
  split
  · rfl
  · exact hk s

theorem advance_reframe (τ : List Turn → List Turn) (s : State) :
    advance (s.reframe id τ) = (advance s).reframe id τ := by
  have hi : (s.reframe id τ).i = s.i := rfl
  have hr : (s.reframe id τ).r = s.r := rfl
  unfold advance
  rw [hi, hr]
  split
  · rfl
  · split <;> rfl

theorem encoderStep_reframe (τ : List Turn → List Turn) {s : State} (hi : Invariant s) :
    encoderStep (s.reframe id τ) = andThen (encoderStep s) fun t => .next (t.reframe id τ) := by
  have hseq : (s.reframe id τ).seq = s.seq := rfl
  cases hs : s.seq <;> simp only [encoderStep, hseq, hs]
  case full =>
    rw [fullStep_eq, fullStep_eq]
    exact unlessError_frameFree (readThen_frameFree fullPairs_frameFree rfl) (frameFree_next (advance_reframe τ)) s
  case tail =>
    obtain ⟨_, _, hc, _⟩ := (seqFields_tail hs).1 hi.fields
    have hr4 := hc.r4
    rw [tailStep_eq (s := s.reframe id τ) (by show s.r4 < 4; omega), tailStep_eq (by omega)]
    have hfinish : FrameFree id τ fun t => .next (finish t) := frameFree_next fun _ => rfl
    exact unlessError_frameFree (readThen_frameFree tailPairs_frameFree rfl) hfinish s
  all_goals rfl

/-! ### What ENCODE still does from a state inside a transaction -/

/-- The tail, where there is one, and the end (41_encode.md R106, R112). -/
def tailAndEnd (s : State) : Result := unlessError (tailGroup s) fun s' => .next (finish s')

/-- What ENCODE still does from here. -/
def atomicRest (s : State) : Result :=
  match s.seq with
  | .full => unlessError (fullGroups (s.i + 1) s) tailAndEnd
  | .tail => tailAndEnd s
  | .idle => .next s
  | .done => .next s
  | .error => .next s

theorem atomicRest_of_full {s : State} (h : s.seq = .full) :
    atomicRest s = unlessError (fullGroups (s.i + 1) s) tailAndEnd := by simp only [atomicRest, h]

theorem atomicRest_of_tail {s : State} (h : s.seq = .tail) : atomicRest s = tailAndEnd s := by
  simp only [atomicRest, h]

theorem atomicRest_of_not_busy {s : State} (h : s.busy = false) : atomicRest s = .next s := by
  cases hs : s.seq with
  | idle | done | error => simp only [atomicRest, hs]
  | full | tail => simp [State.busy, statusState, hs] at h

theorem fullPairs_eq_next {s t : State} (h : fullPairs s = .next t) : ∃ mem, t = s.setBuf mem := by
  obtain ⟨u, hu, ht⟩ := andThen_eq_next.1 h
  obtain ⟨_, _, _, _, _, _, _, rfl⟩ := writePair_eq_next hu
  obtain ⟨_, _, _, _, _, _, _, rfl⟩ := writePair_eq_next ht
  exact ⟨_, rfl⟩

theorem tailAndEnd_of_tail {s : State} (hr : s.r ≠ 0) :
    tailAndEnd s = readThen (fun u => unlessError (tailPairs u) fun t => .next (finish t)) s := by
  rw [tailAndEnd, tailGroup, if_neg hr, unlessError_readThen]

/-- The end overwrites the sequencer state, so the tail may begin in TAIL or, in the atomic ENCODE, as the start left
it. -/
theorem tailAndEnd_setSeq {s : State} (hr : s.r ≠ 0) (hs : s.seq ≠ .error) :
    tailAndEnd { s with seq := .tail } = tailAndEnd s := by
  rw [tailAndEnd_of_tail hr, tailAndEnd_of_tail (s := { s with seq := .tail }) hr, readThen, readThen]
  rw [show ({ s with seq := .tail } : State) = s.reframe (fun _ => .tail) id from rfl, readGroup_reframe]
  cases hg : readGroup s with
  | raised e g u => rfl
  | ok u =>
    show unlessError (tailPairs (u.reframe (fun _ => .tail) id)) _ = unlessError (tailPairs u) _
    rw [tailPairs_frameFree u]
    cases ht : tailPairs u with
    | fault e => rfl
    | refused e => rfl
    | next t =>
      have hne : t.seq ≠ .error := by
        rwa [FrameFree.seq_eq (fun _ => tailPairs_frameFree) ht, (readGroup_readPart hg).seq]
      rw [unlessError_of_ne hne]
      rfl

/-- A FULL step's way on leaves to do what the loop does after the group. -/
theorem atomicRest_advance {s : State} (h : s.seq = .full) :
    atomicRest (advance s) = unlessError (fullGroups s.i s) tailAndEnd := by
  have hne : s.seq ≠ .error := by simp [h]
  unfold advance
  by_cases hi : 0 < s.i
  · rw [if_pos hi, atomicRest_of_full (s := { s with i := s.i - 1 }) h]
    obtain ⟨n, hn⟩ := Nat.exists_eq_succ_of_ne_zero (Nat.ne_of_gt hi)
    rw [hn]
    rfl
  · have hdone : fullGroups s.i s = .next s := by rw [Nat.eq_zero_of_not_pos hi, fullGroups]
    rw [if_neg hi, hdone, unlessError_of_ne hne]
    by_cases hr : s.r = 0
    · rw [if_pos hr, tailAndEnd, tailGroup, if_pos hr, unlessError_of_ne hne, atomicRest_of_not_busy rfl]
    · rw [if_neg hr, atomicRest_of_tail rfl, tailAndEnd_setSeq hr hne]

theorem atomicRest_fullStep {s : State} (h : s.seq = .full) : atomicRest s = andThen (fullStep s) atomicRest := by
  have hs : ({ s with i := s.i } : State) = s := rfl
  rw [atomicRest_of_full h, fullStep_eq, fullGroups, hs, unlessError_readThen, unlessError_readThen,
    unlessError_readThen]
  unfold readThen
  cases hg : readGroup s with
  | raised e g u => exact (atomicRest_of_not_busy rfl).symm
  | ok u =>
    have hu := readGroup_readPart hg
    dsimp only
    cases hp : fullPairs u with
    | fault e => rfl
    | refused e => rfl
    | next t =>
      obtain ⟨mem, rfl⟩ := fullPairs_eq_next hp
      have hseq : (u.setBuf mem).seq = .full := by rw [setBuf_seq, hu.seq, h]
      have hi : (u.setBuf mem).i = s.i := by rw [setBuf_i, hu.same]
      have hne : (u.setBuf mem).seq ≠ .error := by rw [hseq]; decide
      rw [unlessError_of_ne hne, unlessError_of_ne hne, andThen_next, atomicRest_advance hseq, hi]

theorem atomicRest_tailStep {s : State} (hi : Invariant s) (h : s.seq = .tail) :
    atomicRest s = andThen (tailStep s) atomicRest := by
  obtain ⟨_, _, hc, hr, _⟩ := (seqFields_tail h).1 hi.fields
  have hr4 := hc.r4
  have htail : tailStep s = atomicRest s := by
    rw [atomicRest_of_tail h, tailAndEnd, tailGroup, if_neg hr, tailStep_eq (by omega)]
  rw [← htail]
  obtain ⟨_, _, _, _, ht, _⟩ | ⟨_, _, _, _, _, ht⟩ := tailStep_cases hi h <;>
    rw [ht, andThen_next, atomicRest_of_not_busy rfl]

/-- An encoder step leaves to do what there was. -/
theorem atomicRest_encoderStep {s : State} (hi : Invariant s) : atomicRest s = andThen (encoderStep s) atomicRest := by
  cases hb : s.busy with
  | false => rw [encoderStep_of_not_busy hb, andThen_next]
  | true =>
    obtain hs | hs := (busy_iff s).1 hb <;> simp only [encoderStep, hs]
    · exact atomicRest_fullStep hs
    · exact atomicRest_tailStep hi hs

theorem stepsLeft_eq_zero_iff (s : State) : stepsLeft s = 0 ↔ s.busy = false := by
  cases hs : s.seq <;> simp [stepsLeft, State.busy, statusState, hs]

theorem stepsLeft_encoderStep_le {s t : State} (hi : Invariant s) (h : encoderStep s = .next t) :
    stepsLeft t ≤ stepsLeft s - 1 := by
  cases hb : s.busy with
  | false =>
    rw [encoderStep_of_not_busy hb] at h
    cases h
    rw [(stepsLeft_eq_zero_iff s).2 hb]
  | true =>
    obtain ⟨u, hu, hlt⟩ := encoderStep_progress hi hb
    rw [hu] at h
    cases h
    omega

/-- Enough encoder turns do what ENCODE still does. -/
theorem run_encoder_turns (k : Nat) {s : State} (hi : Invariant s) (hk : stepsLeft s ≤ k) :
    run k { s with schedule := List.replicate k .encoder ++ s.schedule } = atomicRest s := by
  induction k generalizing s with
  | zero =>
    rw [run_zero, atomicRest_of_not_busy ((stepsLeft_eq_zero_iff s).1 (by omega))]
    rfl
  | succ k ih =>
    have hstep : step { s with schedule := List.replicate (k + 1) .encoder ++ s.schedule } =
        encoderStep (s.reframe id fun l => List.replicate k .encoder ++ l) := rfl
    rw [run_succ, hstep, encoderStep_reframe _ hi, andThen_assoc, atomicRest_encoderStep hi]
    refine andThen_congr fun t ht => ?_
    have hle := stepsLeft_encoderStep_le hi ht
    exact ih (encoderStep_invariant hi ht) (by omega)

/-! ### The start -/

/-- Where an accepted start goes (R109). -/
theorem started_cases (n : Nat) (a b c : Cursor) (s : State) :
    (0 < n / 8 ∧ (started n a b c s).seq = .full ∧ (started n a b c s).i + 1 = n / 8) ∨
    (n / 8 = 0 ∧ n % 8 ≠ 0 ∧ (started n a b c s).seq = .tail) ∨
    (n / 8 = 0 ∧ n % 8 = 0 ∧ (started n a b c s).seq = .done) := by
  have hseq : (started n a b c s).seq = firstSeq n := rfl
  have hi : (started n a b c s).i = if 0 < n / 8 then n / 8 - 1 else s.i := rfl
  rw [hseq, hi, firstSeq_eq]
  by_cases hq : 0 < n / 8
  · rw [if_pos hq, if_pos hq]
    exact .inl ⟨hq, rfl, Nat.sub_add_cancel hq⟩
  · have hq0 := Nat.eq_zero_of_not_pos hq
    rw [if_neg hq]
    by_cases hr : n % 8 = 0
    · exact .inr (.inr ⟨hq0, hr, if_neg (not_not_intro hr)⟩)
    · exact .inr (.inl ⟨hq0, hr, if_pos hr⟩)

theorem atomicRest_started (n : Nat) (a b c : Cursor) (s : State) :
    atomicRest (started n a b c s) = unlessError (fullGroups (n / 8) (started n a b c s)) tailAndEnd := by
  have hne := started_seq n a b c s
  obtain ⟨_, hs, hi⟩ | ⟨hq, _, hs⟩ | ⟨hq, hr, hs⟩ := started_cases n a b c s
  · rw [atomicRest_of_full hs, hi]
  · rw [atomicRest_of_tail hs, hq, fullGroups, unlessError_of_ne hne]
  · have hr' : (started n a b c s).r = 0 := hr
    rw [atomicRest_of_not_busy (by simp [State.busy, statusState, hs]), hq, fullGroups, unlessError_of_ne hne,
      tailAndEnd, tailGroup, if_pos hr', unlessError_of_ne hne, finish_eq rfl, ← hs]

theorem stepsLeft_started (n : Nat) (a b c : Cursor) (s : State) : stepsLeft (started n a b c s) = ceilDiv n 8 := by
  rw [ceilDiv_eight]
  obtain ⟨_, hs, hi⟩ | ⟨hq, hr, hs⟩ | ⟨hq, hr, hs⟩ := started_cases n a b c s
  · rw [stepsLeft_full hs, hi]
    rfl
  · rw [stepsLeft_tail hs, if_neg hr, hq]
  · rw [(stepsLeft_eq_zero_iff _).2 (by simp [State.busy, statusState, hs]), if_pos hr, hq]

theorem stepsLeft_acceptStart (count : Int) (a b c : Cursor) (s : State) :
    stepsLeft (acceptStart count a b c s) ≤ ceilDiv count.toNat 8 := by
  obtain ⟨n, rfl, h⟩ | ⟨_, h⟩ := acceptStart_cases count a b c s <;> rw [h]
  · rw [stepsLeft_started, Int.toNat_natCast]
  · exact Nat.zero_le _

/-- ENCODE is its start and what there is to do after it. -/
theorem execEncode_eq_start (count : Int) (a b c : Cursor) (s : State) :
    execEncode count a b c s = andThen (startTransaction count a b c s) atomicRest := by
  refine andThen_congr fun s0 h0 => ?_
  dsimp only
  obtain ⟨_, hr⟩ | ⟨_, _, hr⟩ | ⟨_, _, hr, _⟩ := startTransaction_cases count a b c s <;>
    rw [hr] at h0 <;> cases h0
  obtain ⟨n, rfl, h⟩ | ⟨_, h⟩ := acceptStart_cases count a b c s <;> rw [h]
  · rw [if_neg (started_seq n a b c s), atomicRest_started]
    rfl
  · exact (atomicRest_of_not_busy rfl).symm

theorem startTransaction_reframe (count : Int) (a b c : Cursor) (τ : List Turn → List Turn) (s : State) :
    startTransaction count a b c (s.reframe id τ) =
      andThen (startTransaction count a b c s) fun t => .next (t.reframe id τ) := by
  have hb : (s.reframe id τ).busy = s.busy := rfl
  unfold startTransaction acceptStart
  rw [hb]
  split
  · rfl
  · split
    · split <;> rfl
    · rfl

/-! ### The obligations -/

/-- Settles O36: both begin with the start, and then the encoder's turns do what ENCODE still does. -/
theorem sequencerAgreesWithAtomicEncode : Obligations.SequencerAgreesWithAtomicEncode := by
  intro s cmd rest hs
  show _ = execEncode _ _ _ _ _
  have hstart : step s = startTransaction cmd.count cmd.tms cmd.tdi cmd.tdom (State.reframe id
      (fun l => List.replicate (ceilDiv cmd.count.toNat 8) .encoder ++ l) { s with schedule := rest }) :=
    step_of_schedule hs
  rw [Nat.add_comm, run_succ, hstart, startTransaction_reframe, andThen_assoc, execEncode_eq_start]
  refine andThen_congr fun t ht => ?_
  obtain ⟨_, hr⟩ | ⟨_, _, hr⟩ | ⟨_, _, hr, hi⟩ :=
    startTransaction_cases cmd.count cmd.tms cmd.tdi cmd.tdom { s with schedule := rest } <;>
      rw [hr] at ht <;> cases ht
  exact run_encoder_turns _ hi (stepsLeft_acceptStart _ _ _ _ _)

/-- Settles O34: with no group and no tail the start alone ends in DONE, and nothing is left to do. -/
theorem encodeZeroDeliversNothing : Obligations.EncodeZeroDeliversNothing := by
  intro s a b c hb hd
  have hstart : startTransaction 0 a b c s = .next (started 0 a b c s) := startTransaction_ok hb hd 0
  have hexec : exec (.encode 0 a b c) s = .next (started 0 a b c s) := by
    show execEncode 0 a b c s = _
    rw [execEncode_eq_start, hstart, andThen_next, atomicRest_of_not_busy rfl]
  exact ⟨_, hexec, hstart, rfl, rfl, rfl, rfl, rfl, rfl⟩

end Sys2Proof.Machine
end

section
/-! What ENCODE delivers and what it leaves in the registers (41_encode.md section 4): obligations O31, O32, O33, O37,
O38, O39, O40 and O42. The buffer of a caller that keeps its part of the contract is given pair by pair (`Delivered`);
its bits, its decoding and its uniqueness are read off that. -/

namespace Sys2Proof.Machine

/-! ### The buffer, pair by pair -/

/-- Pair `p` of `ENCODE n` carries the four cycles of this sub-group (R113). -/
def subGroup (n p : Nat) : Nat := ceilDiv n 4 - 1 - p

/-- The buffer `ENCODE n` delivers for these bytes. -/
structure Delivered (n : Nat) (tms tdi tdom buf : List Byte) : Prop where
  length : buf.length = 2 * ceilDiv n 4
  byteA : ∀ p, p < ceilDiv n 4 → buf.getD (2 * p) 0 =
    byteOfA (halfOf (subGroup n p)) (tms.getD (subGroup n p / 2) 0) (tdi.getD (subGroup n p / 2) 0)
  byteB : ∀ p, p < ceilDiv n 4 → buf.getD (2 * p + 1) 0 =
    byteOfB (halfOf (subGroup n p)) (tdom.getD (subGroup n p / 2) 0) (maskAt n p)

/-- Each element holds two sub-groups. -/
theorem subGroup_half_lt {n p : Nat} (hp : p < ceilDiv n 4) : subGroup n p / 2 < ceilDiv n 8 := by
  unfold subGroup
  unfold ceilDiv at *
  omega

/-- ENCODE for a caller that keeps its part of the contract ends in DONE and delivers. -/
theorem ready_delivers {s : State} {n : Nat} {a b c : Cursor} {tms tdi tdom : List Byte}
    (h : Ready s n a b c tms tdi tdom) :
    ∃ t buf, exec (.encode n a b c) s = .next t ∧ t.seq = .done ∧ t.err = 0 ∧
      t.streams = s.streams.moved (ceilDiv n 8) ∧ result t = some buf ∧ Delivered n tms tdi tdom buf := by
  obtain ⟨_, mem, ht, hwf, hm⟩ | ⟨hno, _⟩ := execEncode_cases h.notBusy h.distinct n
  · obtain ⟨buf, hres, hlen, hbyte⟩ := finished_result hwf hm
    refine ⟨_, buf, ht, rfl, rfl, rfl, hres, hlen, fun p hp => ?_, fun p hp => ?_⟩
    all_goals
      have hL : outLen n = 2 * ceilDiv n 4 := rfl
      have hk := subGroup_half_lt hp
      obtain ⟨_, htms⟩ := h.tms_there
      obtain ⟨_, htdi⟩ := h.tdi_there
      obtain ⟨_, htdom⟩ := h.tdom_there
      obtain ⟨hA, hB⟩ := pairIs (started n a b c s) hp
    · rw [hbyte _ (by omega), hA]
      exact congrArg₂ _ (elemByte_bytes htms (by rwa [h.tms_length])) (elemByte_bytes htdi (by rwa [h.tdi_length]))
    · rw [hbyte _ (by omega), hB]
      exact congrArg₂ _ (elemByte_bytes htdom (by rwa [h.tdom_length])) rfl
  · exact absurd (ready_operandsFit h) hno

/-! ### Its bits -/

section
variable {n : Nat} {tms tdi tdom buf : List Byte} (h : Delivered n tms tdi tdom buf)
include h

theorem Delivered.closedForm : ClosedForm n tms tdi tdom buf := by
  have hplace : ∀ c, c < 4 * ceilDiv n 4 → pairOf n c < ceilDiv n 4 ∧ subGroup n (pairOf n c) = c / 4 ∧
      c % 4 < 4 ∧ c / 4 / 2 = c / 8 ∧ 4 * (c / 4) + c % 4 = c := by
    intro c hc
    simp only [pairOf, subGroup]
    omega
  refine ⟨h.length, fun c hc => ?_, fun c hc => ?_, fun c hc => ?_, fun c hc => ?_⟩ <;>
    obtain ⟨hp, hsg, hj, hdiv, hsum⟩ := hplace c hc
  · rw [bufBit, h.byteA _ hp, hsg, (byteOfA_bits _ hj _ _).1, hdiv, hsum, cycleBit]
  · rw [bufBit, h.byteA _ hp, hsg, (byteOfA_bits _ hj _ _).2, hdiv, hsum, cycleBit]
  · rw [bufBit, h.byteB _ hp, hsg, (byteOfB_bits _ hj _ _).1, hdiv, hsum, cycleBit]
  · rw [bufBit, h.byteB _ hp, (byteOfB_bits _ hj _ _).2, maskAt_bit hj hp, ← subGroup, hsg, hsum]

theorem Delivered.validBits {p : Nat} (hp : p < ceilDiv n 4) : lowNibble (buf.getD (2 * p + 1) 0) = maskAt n p := by
  rw [h.byteB p hp, byteOfB_eq_append, lowNibble_append]

/-- The bytes fix the buffer. -/
theorem Delivered.unique {buf' : List Byte} (h' : Delivered n tms tdi tdom buf') : buf = buf' := by
  refine List.ext_getElem (h.length.trans h'.length.symm) fun x hx hx' => ?_
  have hp : x / 2 < ceilDiv n 4 := by rw [h.length] at hx; omega
  rw [← List.getD_eq_getElem _ 0 hx, ← List.getD_eq_getElem _ 0 hx']
  obtain hx2 | hx2 : x = 2 * (x / 2) ∨ x = 2 * (x / 2) + 1 := by omega
  · rw [hx2, h.byteA _ hp, h'.byteA _ hp]
  · rw [hx2, h.byteB _ hp, h'.byteB _ hp]

end

/-- Settles O31: the bits of each pair's two bytes. -/
theorem encodeDeliversTheClosedForm : Obligations.EncodeDeliversTheClosedForm := by
  intro s n a b c tms tdi tdom hr
  obtain ⟨t, buf, ht, hd, he, _, hres, h⟩ := ready_delivers hr
  exact ⟨t, buf, ht, hd, he, hres, h.closedForm⟩

theorem vmask_of_maskAt (n p : Nat) : vmask (if p = 0 ∧ n % 4 ≠ 0 then n % 4 else 4) = some (maskAt n p) := by
  unfold maskAt
  split
  · exact vmask_isSome (by omega)
  · exact vmask_four

/-- Settles O38: the valid-bits nibbles are `maskAt`, which is the mask generator's. -/
theorem onlyPairZeroIsPartial : Obligations.OnlyPairZeroIsPartial := by
  intro s n a b c tms tdi tdom hr
  obtain ⟨t, buf, ht, _, _, _, hres, h⟩ := ready_delivers hr
  exact ⟨t, buf, ht, hres, fun p hp => by rw [vmask_of_maskAt, h.validBits hp]⟩

/-- Settles O40: both buffers are `Delivered` for the same bytes, and these fix it. -/
theorem sameInputGivesSameOutput : Obligations.SameInputGivesSameOutput := by
  intro s s' n a b c a' b' c' tms tdi tdom hr hr'
  obtain ⟨t, buf, ht, _, _, _, hres, h⟩ := ready_delivers hr
  obtain ⟨t', buf', ht', _, _, _, hres', h'⟩ := ready_delivers hr'
  exact ⟨t, t', buf, ht, ht', hres, h.unique h' ▸ hres'⟩

/-- Settles O39: every position of the buffer is some cycle's, and its valid bit says whether the cycle is below `n`. -/
theorem bitsBeyondCountChangeNoValidBit : Obligations.BitsBeyondCountChangeNoValidBit := by
  intro s s' n a b c a' b' c' tms tdi tdom tms' tdi' tdom' hr hr' hagree
  obtain ⟨t, buf, ht, _, _, _, hres, h⟩ := ready_delivers hr
  obtain ⟨t', buf', ht', _, _, _, hres', h'⟩ := ready_delivers hr'
  have f := h.closedForm
  have f' := h'.closedForm
  refine ⟨t, t', buf, buf', ht, ht', hres, hres', f.length.trans f'.length.symm, fun p j hp hj => ?_⟩
  rw [f.length] at hp
  obtain ⟨x, hx, rfl, rfl⟩ : ∃ x, x < 4 * ceilDiv n 4 ∧ p = pairOf n x ∧ j = x % 4 :=
    ⟨4 * (ceilDiv n 4 - 1 - p) + j, by omega, by unfold pairOf; omega, by omega⟩
  rw [f.valid x hx, f'.valid x hx, f.tms x hx, f'.tms x hx, f.tdi x hx, f'.tdi x hx, f.tdom x hx, f'.tdom x hx]
  exact ⟨rfl, fun hv => hagree x (of_decide_eq_true hv)⟩

/-! ### Its decoding -/

/-- Pair `p` of a buffer. -/
def pairAt (buf : List Byte) (p : Nat) : Byte × Byte := (buf.getD (2 * p) 0, buf.getD (2 * p + 1) 0)

theorem pairsOf_even {buf : List Byte} {P : Nat} (h : buf.length = 2 * P) :
    pairsOf buf = .ok ((List.range P).map (pairAt buf)) := by
  induction P generalizing buf with
  | zero => rw [List.length_eq_zero_iff.1 h]; rfl
  | succ P ih =>
    match buf, h with
    | x :: y :: rest, h =>
      have hrest := ih (buf := rest) (by simpa [Nat.mul_add] using h)
      rw [pairsOf, hrest, List.range_succ_eq_map, List.map_cons, List.map_map]
      rfl

/-- Pair 0's mask marks what the other pairs, of four cycles each, leave of the count. -/
theorem cyclesOf_maskAt_zero (n : Nat) :
    cyclesOf (maskAt n 0) = some (if n % 4 = 0 then 4 else n % 4) := by
  obtain h | h | h | h : n % 4 = 0 ∨ n % 4 = 1 ∨ n % 4 = 2 ∨ n % 4 = 3 := by omega
  all_goals
    simp only [maskAt, h]
    decide

theorem nibbleBits_eq_map (x : Nibble) : nibbleBits x = (List.range 4).map fun j => x.getLsbD (3 - j) := rfl

theorem getLsbD_highNibble (x : Byte) {j : Nat} (hj : j < 4) : (highNibble x).getLsbD (3 - j) = x.getLsbD (7 - j) := by
  rw [← hi_eq_highNibble, getLsbD_hi x (by omega), show 4 + (3 - j) = 7 - j by omega]

theorem getLsbD_lowNibble (x : Byte) {j : Nat} (hj : j < 4) : (lowNibble x).getLsbD (3 - j) = x.getLsbD (3 - j) := by
  rw [← lo_eq_lowNibble, getLsbD_lo x (by omega)]

/-- Four positions for each sub-group are all positions. -/
theorem flatMap_range_four {α : Type} (f : Nat → α) (P : Nat) :
    (List.range P).flatMap (fun sg => (List.range 4).map fun j => f (4 * sg + j)) = (List.range (4 * P)).map f := by
  induction P with
  | zero => rfl
  | succ P ih =>
    rw [List.range_succ (n := P), List.flatMap_append, ih, Nat.mul_succ, List.range_add, List.map_append,
      List.flatMap_singleton, List.map_map]
    rfl

theorem reverse_range_eq_map (P : Nat) : (List.range P).reverse = (List.range P).map fun sg => P - 1 - sg := by
  conv_lhs => rw [List.range_eq_range', List.reverse_range', Nat.zero_add]

/-- Where a choice of nibble has a signal's bits, the signal is decoded. -/
theorem signalBits_eq {n : Nat} {buf bs : List Byte} {pick : Byte × Byte → Nibble}
    (h : ∀ c, c < 4 * ceilDiv n 4 → (pick (pairAt buf (pairOf n c))).getLsbD (3 - c % 4) = cycleBit bs c) :
    signalBits n pick ((List.range (ceilDiv n 4)).map (pairAt buf)) = (List.range n).map (cycleBit bs) := by
  have hn : n ≤ 4 * ceilDiv n 4 := by unfold ceilDiv; omega
  have hbits : ∀ sg ∈ List.range (ceilDiv n 4), nibbleBits (pick (pairAt buf (ceilDiv n 4 - 1 - sg))) =
      (List.range 4).map fun j => cycleBit bs (4 * sg + j) := by
    intro sg hsg
    rw [List.mem_range] at hsg
    rw [nibbleBits_eq_map]
    refine List.map_congr_left fun j hj => ?_
    rw [List.mem_range] at hj
    have hb := h (4 * sg + j) (by omega)
    rwa [pairOf, show (4 * sg + j) / 4 = sg by omega, show (4 * sg + j) % 4 = j by omega] at hb
  rw [signalBits, ← List.map_reverse, List.flatMap_map, reverse_range_eq_map, List.flatMap_map,
    List.flatMap_congr hbits, flatMap_range_four, ← List.map_take, List.take_range, Nat.min_eq_left hn]

section
variable {n : Nat} {tms tdi tdom buf : List Byte} (h : Delivered n tms tdi tdom buf)
include h

theorem Delivered.countOf : countOf ((List.range (ceilDiv n 4)).map (pairAt buf)) = .ok n := by
  cases hP : ceilDiv n 4 with
  | zero =>
    have hn : n = 0 := by unfold ceilDiv at hP; omega
    rw [hn]
    rfl
  | succ k =>
    have hzero : cyclesOf (lowNibble (pairAt buf 0).2) = some (if n % 4 = 0 then 4 else n % 4) := by
      rw [← cyclesOf_maskAt_zero, ← h.validBits (by omega)]
      rfl
    have hrest : ((List.range k).map (pairAt buf ∘ Nat.succ)).all (fun p => lowNibble p.2 = 0xF) = true := by
      rw [List.all_eq_true]
      intro x hx
      obtain ⟨p, hp, rfl⟩ := List.mem_map.1 hx
      rw [List.mem_range] at hp
      exact decide_eq_true (h.validBits (p := p + 1) (by omega))
    rw [List.range_succ_eq_map, List.map_cons, List.map_map, countOf_cons_of_cycles hzero, if_pos hrest]
    have hn : 4 * k + (if n % 4 = 0 then 4 else n % 4) = n := by
      unfold ceilDiv at hP
      split <;> omega
    rw [List.length_map, List.length_range, hn]

end

/-- Settles O37: the buffer's pairs give the count by `countOf`, each signal by its closed form, and the operations by
their places. -/
theorem outputDecodesToTheInput : Obligations.OutputDecodesToTheInput := by
  intro s n a b c tms tdi tdom hr
  obtain ⟨t, buf, ht, _, _, _, hres, h⟩ := ready_delivers hr
  have f := h.closedForm
  have hdec := pairsOf_even h.length
  refine ⟨t, buf, _, ht, hres, by rw [decodeBuffer, hdec]; dsimp only; rw [h.countOf], rfl, ?_, ?_, ?_, ?_⟩
  · refine signalBits_eq fun c hc => ?_
    rw [getLsbD_highNibble _ (by omega), ← f.tms c hc]
    rfl
  · refine signalBits_eq fun c hc => ?_
    rw [getLsbD_lowNibble _ (by omega), ← f.tdi c hc]
    rfl
  · refine signalBits_eq fun c hc => ?_
    rw [getLsbD_highNibble _ (by omega), ← f.tdom c hc]
    rfl
  · rw [List.length_map, List.length_range, List.map_filterMap_some_eq_filter_map_isSome, List.filter_eq_self]
    intro x hx
    obtain ⟨p, hp, rfl⟩ := List.mem_map.1 hx
    exact (opAt_isSome_iff n p).2 (List.mem_range.1 hp)

/-! ### What ENCODE leaves (R111, R136) -/

section
variable {s t : State} {n : Nat} {a b c : Cursor}

/-- The state of a successful ENCODE, on streams that had the elements. -/
structure EndsInDone (n : Nat) (a b c : Cursor) (s : State) (mem : Memory) (t : State) : Prop where
  eq : t = finished n (started n a b c s) mem
  fits : ∀ x, StreamFits (ceilDiv n 8) (s.streams.get x)
  written : ∀ x, (mem.read x).isSome = true ↔ x < outLen n

/-- Three distinct operands are all three streams. -/
theorem streamFits_of_operandsFit {k : Nat} (hd : cursorsDistinct a b c = true)
    (h : OperandsFit k (started n a b c s)) (x : Cursor) : StreamFits k (s.streams.get x) := by
  obtain rfl | rfl | rfl := cursor_cases hd x
  · exact h .tms
  · exact h .tdi
  · exact h .tdom

/-- Where ENCODE of a count answers a next state, it succeeded, or it raised an error. -/
theorem execEncode_eq_next (h : execEncode n a b c s = .next t) :
    (∃ mem, EndsInDone n a b c s mem t) ∨ ∃ e g s', Kept (started n a b c s) s' ∧ t = raise e g s' := by
  obtain ⟨_, hr⟩ | ⟨_, _, hr⟩ | ⟨hb, hd, _⟩ := execEncode_outcomes n a b c s
  · rw [hr] at h; cases h
  · rw [hr] at h; cases h
  · obtain ⟨ho, mem, hr, _, hm⟩ | ⟨_, e, g, s', hk, hr⟩ := execEncode_cases hb hd n <;>
      rw [hr] at h <;> cases h
    · refine .inl ⟨mem, rfl, streamFits_of_operandsFit hd ho, fun x => ?_⟩
      rw [hm]
      split <;> simp [*]
    · exact .inr ⟨e, g, s', hk, rfl⟩

theorem execEncode_eq_done (h : execEncode n a b c s = .next t) (hd : t.seq = .done) :
    ∃ mem, EndsInDone n a b c s mem t := by
  obtain h | ⟨e, g, s', _, rfl⟩ := execEncode_eq_next h
  · exact h
  · cases hd

end

theorem Stream.pos_moved {n : Nat} {st : Stream} (h : n ≤ st.unread.length) : (st.moved n).pos = st.pos + n := by
  simp [Stream.pos, Stream.moved, Nat.min_eq_left h]

/-- A latch after the reads of `ENCODE n`: the last element read, where one was. -/
theorem lastLatch_eq (n : Nat) (x : Byte) (st : Stream) :
    (if ceilDiv n 8 = 0 then x else elemByte st (ceilDiv n 8 - 1)) =
      if n = 0 then x else headByte (st.moved (ceilDiv n 8 - 1)) := by
  rw [← elemByte_zero, elemByte_moved, Nat.add_zero]
  exact if_congr (by unfold ceilDiv; omega) rfl rfl

theorem finished_i (n : Nat) (a b c : Cursor) (s : State) (mem : Memory) :
    (finished n (started n a b c s) mem).i = if 0 < n / 8 then 0 else s.i := by
  show (if n / 8 = 0 then if 0 < n / 8 then n / 8 - 1 else s.i else 0) = _
  split <;> simp [*, Nat.pos_iff_ne_zero]

/-- Settles O32: a successful ENCODE had its elements, so the cursors did move by as many. -/
theorem encodeConsumesExactlyItsElements : Obligations.EncodeConsumesExactlyItsElements := by
  intro s t n a b c h hd
  obtain ⟨mem, rfl, hfits, _⟩ := execEncode_eq_done h hd
  refine ⟨fun x => ?_, rfl, rfl, rfl⟩
  exact (congrArg Stream.pos (get_moved s.streams _ x)).trans (Stream.pos_moved (hfits x).1)

/-- Settles O42: what the first ENCODE leaves is ready for the second. -/
theorem secondEncodeStartsWhereTheFirstEnded : Obligations.SecondEncodeStartsWhereTheFirstEnded := by
  intro s t1 n1 n2 a b c tms tdi tdom h hd hr
  obtain ⟨mem, rfl, _, _⟩ := execEncode_eq_done h hd
  have hr' : Ready (finished n1 (started n1 a b c s) mem) n2 a b c tms tdi tdom :=
    ⟨rfl, hr.distinct, hr.tms_length, hr.tdi_length, hr.tdom_length, hr.tms_there, hr.tdi_there, hr.tdom_there⟩
  obtain ⟨t, buf, ht, hdone, _, hstr, hres, h⟩ := ready_delivers hr'
  exact ⟨t, buf, ht, hdone, hres, h.closedForm, hstr.trans (Streams.moved_moved _ _ _)⟩

/-- Settles O33: after success every register is `finished`'s; after an error, what `Kept` and `raise` leave. -/
theorem encodeChangesOnlyItsRegisters : Obligations.EncodeChangesOnlyItsRegisters := by
  intro s t n a b c h
  obtain ⟨mem, rfl, _, hcell⟩ | ⟨e, g, s', hk, rfl⟩ := execEncode_eq_next h
  · refine ⟨fun _ => ⟨hcell, ?_⟩, fun h => by cases h⟩
    rw [← finished_i n a b c s mem, ← lastLatch_eq, ← lastLatch_eq, ← lastLatch_eq]
    rfl
  · refine ⟨fun h => (by cases h), fun _ => ⟨fun he => ?_, ?_, ?_⟩⟩
    · cases e
      · rfl
      · cases he
    · exact sameSequences_trans hk.sequences (scatterCursors_sequences s')
    · rw [hk.same]
      rfl

end Sys2Proof.Machine
end

section
/-! What a step stops for, and how a transaction ends in ERROR (60_exceptions.md section 1): obligations O5, O18, O19 and
O35. -/

namespace Sys2Proof.Machine

/-! ### Stops (R130) -/

/-- A next state, or a stop for something the caller does (R54, R155, R156). -/
def StopsForCaller : Result → Prop
  | .next _ => True
  | .fault f => f = .startWhileBusy ∨ f = .noResult ∨ f = .readOutOfRange
  | .refused f => f = .sharedCursors ∨ f = .streamTouched

theorem encoderStep_next {s : State} (hi : Invariant s) : ∃ t, encoderStep s = .next t := by
  cases hb : s.busy with
  | false => exact ⟨s, encoderStep_of_not_busy hb⟩
  | true =>
    obtain ⟨t, ht, _⟩ := encoderStep_progress hi hb
    exact ⟨t, ht⟩

/-- A read of the result fails only where there is none, or past its end: at DONE every cell below `L` is written. -/
theorem callerRead_eq_error {s : State} {off : Nat} {f : Fault} (hi : Invariant s) (h : callerRead s off = .error f) :
    f = .noResult ∨ f = .readOutOfRange := by
  by_cases hd : s.seq = .done
  · by_cases hl : off < s.L
    · obtain ⟨_, b, _, _, _, hb⟩ := callerRead_of_done hi hd hl
      rw [hb] at h
      cases h
    · rw [callerRead, if_pos hd, if_neg hl] at h
      cases h
      exact .inr rfl
  · rw [callerRead, if_neg hd] at h
    cases h
    exact .inl rfl

theorem takeTurn_stopsForCaller (turn : Turn) {s : State} (hi : Invariant s) : StopsForCaller (takeTurn turn s) := by
  cases turn with
  | encoder =>
    obtain ⟨t, ht⟩ := encoderStep_next hi
    rw [takeTurn, ht]
    trivial
  | start c =>
    obtain ⟨_, hr⟩ | ⟨_, _, hr⟩ | ⟨_, _, hr, _⟩ := startTransaction_cases c.count c.tms c.tdi c.tdom s <;>
      rw [takeTurn, hr]
    · exact .inl rfl
    · exact .inl rfl
    · trivial
  | call c =>
    show StopsForCaller (execEncode c.count c.tms c.tdi c.tdom s)
    obtain ⟨_, hr⟩ | ⟨_, _, hr⟩ | ⟨_, _, _, hr, _⟩ := execEncode_outcomes c.count c.tms c.tdi c.tdom s <;>
      rw [hr]
    · exact .inl rfl
    · exact .inl rfl
    · trivial
  | reset => trivial
  | setStream c st =>
    rw [takeTurn]
    split
    · exact .inr rfl
    · trivial
  | readStatus =>
    rw [takeTurn, if_neg hi.err_ne_reserved]
    trivial
  | readCell off =>
    cases h : callerRead s off with
    | ok b => rw [takeTurn_readCell_ok h]; trivial
    | error f =>
      rw [takeTurn_readCell_error h]
      exact .inr (callerRead_eq_error hi h)

/-- Settles O5, turn by turn: the encoder's turn never stops, and the invariant excludes the reserved code and a read of
an unwritten cell. -/
theorem stopsAreTheCallersDoing : Obligations.StopsAreTheCallersDoing := by
  intro s hi
  have h : StopsForCaller (step s) := by
    rw [step_eq_takeTurn]
    exact takeTurn_stopsForCaller _ (invariant_caller hi _ s.streams s.draws)
  exact ⟨fun f hf => by rwa [hf] at h, fun f hf => by rwa [hf] at h⟩

/-! ### Errors of the reads (R131 to R136) -/

theorem advance_streams (s : State) : (advance s).streams = s.streams := by
  unfold advance
  split
  · rfl
  · split <;> rfl

theorem advance_seq_ne_error {s : State} (h : s.seq ≠ .error) : (advance s).seq ≠ .error := by
  unfold advance
  split
  · exact h
  · split <;> simp

/-- All that the encoder's step can do in a transaction: take its elements and end in no error, or raise its
reads' error. -/
theorem encoderStep_cases {s : State} (hi : Invariant s) (hb : s.busy = true) :
    (groupError s = none ∧ ∃ t, encoderStep s = .next t ∧ t.seq ≠ .error ∧ t.streams = s.streams.moved 1) ∨
    ∃ e g s', groupError s = some e ∧ ReadPart s s' ∧ encoderStep s = .next (raise e g s') := by
  obtain hs | hs := (busy_iff s).1 hb <;> simp only [encoderStep, hs]
  · obtain ⟨he, mem, _, hr⟩ | herror := fullStep_cases hi hs
    · exact .inl ⟨he, _, hr, advance_seq_ne_error (by simp [hs]), advance_streams _⟩
    · exact .inr herror
  · obtain ⟨he, _, mem, _, hr, _⟩ | herror := tailStep_cases hi hs
    · exact .inl ⟨he, _, hr, by simp, rfl⟩
    · exact .inr herror

/-- Settles O18: the step answers what `raise` makes of the state at which its reads stopped. -/
theorem errorEndsTheTransaction : Obligations.ErrorEndsTheTransaction := by
  intro s s' e hi ha hb he
  have hi' := acts_invariant ha hi
  rw [step_of_acts ha]
  obtain ⟨l, rfl⟩ := exists_schedule_of_acts ha
  obtain ⟨hnone, _⟩ | ⟨_, g, u, he', hu, hr⟩ := encoderStep_cases hi' hb
  · exact absurd (he.symm.trans hnone) (by simp)
  · cases he.symm.trans he'
    refine ⟨_, hr, rfl, rfl, rfl, rfl, fun h => by rw [h]; rfl,
      sameSequences_trans hu.sequences (scatterCursors_sequences u), ?_⟩
    rw [hu.same]
    rfl

/-- Settles O19: the start raises the error, and ENCODE has nothing left to do. -/
theorem negativeCountIsAnError : Obligations.NegativeCountIsAnError := by
  intro s count a b c hb hd hneg
  have hstart : startTransaction count a b c s = .next (raise .invalidArgument none (s.bind a b c)) := by
    rw [startTransaction, if_neg (by simp [hb]), if_pos hd, acceptStart, if_pos hneg]
  have hexec : exec (.encode count a b c) s = .next (raise .invalidArgument none (s.bind a b c)) := by
    show execEncode count a b c s = _
    rw [execEncode_eq_start, hstart, andThen_next, atomicRest_of_not_busy rfl]
  exact ⟨_, hexec, hstart, rfl, rfl, rfl, rfl, scatterCursors_sequences _, rfl⟩

/-! ### Where ENCODE ends (R130, R152) -/

/-- The byte of an element that the port carries is the element. -/
theorem toNat_ofInt_of_elemFits {e : Int} (h : elemFits e = true) : ((BitVec.ofInt 8 e).toNat : Int) = e := by
  obtain ⟨h0, h255⟩ := (elemFits_iff e).1 h
  exact headByte_toNat (st := ⟨[], [e]⟩) rfl h0 h255

theorem byteElems_ofInt {es : List Int} (h : ∀ e ∈ es, elemFits e = true) :
    byteElems (es.map (BitVec.ofInt 8)) = es := by
  rw [byteElems, List.map_map]
  exact (List.map_congr_left fun e he => toNat_ofInt_of_elemFits (h e he)).trans (List.map_id es)

/-- A stream that has its next `n` elements supplies them as bytes. -/
theorem supplies_of_streamFits {n : Nat} {s : State} {c : Cursor} (h : StreamFits n (s.streams.get c)) :
    ∃ bs, bs.length = n ∧ Supplies s c bs := by
  obtain ⟨hlen, hfit⟩ := h
  refine ⟨((s.streams.get c).unread.take n).map (BitVec.ofInt 8), by simpa using hlen,
    (s.streams.get c).unread.drop n, ?_⟩
  rw [byteElems_ofInt hfit, List.take_append_drop]

/-- The caller keeps its part of the contract, for some bytes, just where the operands have their elements (R152). -/
theorem exists_ready_iff {s : State} {n : Nat} {a b c : Cursor} (hb : s.busy = false)
    (hd : cursorsDistinct a b c = true) :
    (∃ tms tdi tdom, Ready s n a b c tms tdi tdom) ↔ OperandsFit (ceilDiv n 8) (started n a b c s) := by
  refine ⟨fun ⟨_, _, _, h⟩ => ready_operandsFit h, fun h => ?_⟩
  obtain ⟨tms, htms, sa⟩ := supplies_of_streamFits (s := s) (c := a) (h .tms)
  obtain ⟨tdi, htdi, sb⟩ := supplies_of_streamFits (s := s) (c := b) (h .tdi)
  obtain ⟨tdom, htdom, sc⟩ := supplies_of_streamFits (s := s) (c := c) (h .tdom)
  exact ⟨tms, tdi, tdom, hb, hd, htms, htdi, htdom, sa, sb, sc⟩

/-- Every element still to read fits a byte. -/
def BytesLeft (s : State) : Prop := ∀ x, ∀ e ∈ (s.streams.get x).unread, 0 ≤ e ∧ e ≤ 255

theorem headError_of_bytes {st : Stream} (h : ∀ e ∈ st.unread, 0 ≤ e ∧ e ≤ 255) :
    headError st ≠ some .invalidArgument := by
  cases hu : st.unread with
  | nil => rw [headError_of_nil hu]; decide
  | cons e rest =>
    rw [headError_of_cons hu, if_pos ((elemFits_iff e).2 (h e (by simp [hu])))]
    decide

theorem BytesLeft.groupError {s : State} (h : BytesLeft s) {e : ErrKind} (he : groupError s = some e) :
    e = .inputExhausted := by
  cases e with
  | inputExhausted => rfl
  | invalidArgument =>
    have hne := fun g => headError_of_bytes (st := s.streamOf g) (h _)
    simp [Machine.groupError, Option.or_eq_some_iff, hne] at he

theorem BytesLeft.moved {s t : State} (h : BytesLeft s) {n : Nat} (ht : t.streams = s.streams.moved n) :
    BytesLeft t := by
  intro x e he
  rw [ht, get_moved] at he
  exact h x e (List.mem_of_mem_drop he)

/-- On streams of bytes a transaction can only run out of elements (R131, R132): by induction on the steps it still
takes. -/
theorem atomicRest_error_of_bytes (k : Nat) {s t : State} (hi : Invariant s) (hk : stepsLeft s ≤ k)
    (hs : s.seq ≠ .error) (hbytes : BytesLeft s) (h : atomicRest s = .next t) (ht : t.seq = .error) : t.err = 2 := by
  induction k generalizing s with
  | zero =>
    rw [atomicRest_of_not_busy ((stepsLeft_eq_zero_iff s).1 (Nat.le_zero.1 hk))] at h
    cases h
    exact absurd ht hs
  | succ k ih =>
    cases hb : s.busy with
    | false => exact ih hi (by rw [(stepsLeft_eq_zero_iff s).2 hb]; exact Nat.zero_le k) hs hbytes h
    | true =>
      rw [atomicRest_encoderStep hi] at h
      obtain ⟨_, u, hu, hne, hstr⟩ | ⟨e, g, u, he, _, hu⟩ := encoderStep_cases hi hb <;>
        rw [hu, andThen_next] at h
      · have hle := stepsLeft_encoderStep_le hi hu
        exact ih (encoderStep_invariant hi hu) (by omega) hne (hbytes.moved hstr) h
      · rw [atomicRest_of_not_busy rfl, hbytes.groupError he] at h
        cases h
        rfl

theorem execEncode_error_of_bytes {s t : State} {n : Nat} {a b c : Cursor} (hb : s.busy = false)
    (hd : cursorsDistinct a b c = true) (hbytes : BytesLeft s) (h : execEncode n a b c s = .next t)
    (ht : t.seq = .error) : t.err = 2 := by
  rw [execEncode_eq_start, startTransaction_ok hb hd, andThen_next] at h
  exact atomicRest_error_of_bytes _ (started_invariant hd n) (Nat.le_refl _) (started_seq n a b c s) hbytes h ht

/-- Settles O35: ENCODE succeeds just where the operands have their elements, which is what `Ready` asks; and on streams
of bytes no read raises InvalidArgument. -/
theorem encodeSucceedsExactlyOnFullStreams : Obligations.EncodeSucceedsExactlyOnFullStreams := by
  intro s n a b c hb hd
  rw [exists_ready_iff hb hd]
  obtain ⟨hfit, mem, hr, _⟩ | ⟨hno, e, g, u, _, hr⟩ := execEncode_cases hb hd n
  · exact ⟨_, hr, iff_of_true rfl hfit, fun hne => absurd rfl hne⟩
  · obtain ⟨hcode, _⟩ := (seqFields_error rfl).1 (raise_invariant e g u).fields
    exact ⟨_, hr, iff_of_false (by simp) hno,
      fun _ => ⟨rfl, hcode, rfl, fun hbytes => execEncode_error_of_bytes hb hd hbytes hr rfl⟩⟩

end Sys2Proof.Machine
end

section
/-! How a transaction ends: by its encoder steps, and by a reset; and that no start comes between
(70_reset_and_hazards.md sections 1, 3 and 4): obligations O20, O22 and O30. -/

namespace Sys2Proof.Machine

/-! ### A start while BUSY (R155) -/

theorem startTransaction_of_busy {s : State} (hb : s.busy = true) (count : Int) (a b c : Cursor) :
    startTransaction count a b c s = .fault .startWhileBusy := if_pos hb

/-- Settles O20: both forms of a start begin with `startTransaction`, which looks at BUSY first. -/
theorem startWhileBusyHasNoStep : Obligations.StartWhileBusyHasNoStep := by
  refine fun s hb => ⟨fun count a b c => ?_, fun cmd rest hs => ?_⟩
  · show execEncode count a b c s = _
    rw [execEncode_eq_start, startTransaction_of_busy hb]
    rfl
  · rw [step_of_schedule hs]
    exact startTransaction_of_busy (s := { s with schedule := rest }) hb _ _ _ _

/-! ### Reset (R150, R151) -/

theorem resetBlock_of_not_busy {s : State} (hb : s.busy = false) :
    resetBlock s = { State.reset with streams := s.streams, schedule := s.schedule, draws := s.draws } := by
  simp [resetBlock, hb]

/-- Reset in a transaction leaves the cursors where no rule says (R151). -/
theorem resetBlock_of_busy {s : State} (hb : s.busy = true) :
    resetBlock s = { State.reset with
      streams := s.scatterCursors.streams, schedule := s.schedule, draws := s.draws + 3 } := by
  simp [resetBlock, hb]

theorem resetBlock_schedule (s : State) : (resetBlock s).schedule = s.schedule := by
  cases hb : s.busy with
  | false => rw [resetBlock_of_not_busy hb]
  | true => rw [resetBlock_of_busy hb]

theorem resetBlock_sequences (s : State) : s.streams.SameSequences (resetBlock s).streams := by
  cases hb : s.busy with
  | false =>
    rw [resetBlock_of_not_busy hb]
    exact sameSequences_refl _
  | true =>
    rw [resetBlock_of_busy hb]
    exact scatterCursors_sequences s

/-- Settles O22: every field of the block is `State.reset`'s, and only an abandoned transaction's cursors move. -/
theorem resetAbandonsTheTransaction : Obligations.ResetAbandonsTheTransaction := by
  intro s rest hs
  refine ⟨resetBlock { s with schedule := rest }, step_of_schedule hs, rfl, rfl, rfl, rfl, resetBlock_schedule _,
    resetBlock_sequences { s with schedule := rest }, fun hb => ?_⟩
  rw [resetBlock_of_not_busy (s := { s with schedule := rest }) hb]

/-! ### The encoder steps of a transaction (R109, R159, R160) -/

theorem encoderStep_schedule {s t : State} (hi : Invariant s) (h : encoderStep s = .next t) :
    t.schedule = s.schedule := by
  have hframe : encoderStep s = andThen (encoderStep s) fun u => .next (u.reframe id fun _ => s.schedule) :=
    encoderStep_reframe (fun _ => s.schedule) hi
  rw [h, andThen_next] at hframe
  injection hframe with ht
  rw [ht]
  rfl

/-- A transaction that takes `n` more encoder steps, or has ended in ERROR. -/
def EndsIn (n : Nat) (s : State) : Prop := s.seq = .error ∨ (stepsLeft s = n ∧ s.seq ≠ .idle)

theorem EndsIn.of_busy {s : State} (hb : s.busy = true) : EndsIn (stepsLeft s) s := by
  refine .inr ⟨rfl, fun h => ?_⟩
  simp [State.busy, statusState, h] at hb

theorem EndsIn.ended {s : State} (h : EndsIn 0 s) : s.seq = .done ∨ s.seq = .error := by
  obtain he | ⟨h0, hidle⟩ := h
  · exact .inr he
  · cases hs : s.seq with
    | idle => exact absurd hs hidle
    | full => rw [stepsLeft_full hs] at h0; omega
    | tail => rw [stepsLeft_tail hs] at h0; omega
    | done => exact .inl rfl
    | error => exact .inr rfl

theorem EndsIn.underway {n : Nat} {s : State} (h : EndsIn (n + 1) s) : s.busy = true ∨ s.seq = .error := by
  obtain he | ⟨hn, _⟩ := h
  · exact .inr he
  · cases hb : s.busy with
    | true => exact .inl rfl
    | false => rw [(stepsLeft_eq_zero_iff s).2 hb] at hn; omega

theorem advance_endsIn {n : Nat} {s : State} (hs : s.seq = .full) (h : stepsLeft s = n + 1) : EndsIn n (advance s) := by
  have hleft := stepsLeft_advance hs
  refine .inr ⟨by omega, ?_⟩
  unfold advance
  split
  · simp [hs]
  · split <;> simp

/-- An encoder step takes exactly one off what is left, or ends the transaction in ERROR, and ERROR stays. -/
theorem encoderStep_endsIn {n : Nat} {s : State} (hi : Invariant s) (h : EndsIn (n + 1) s) :
    ∃ t, encoderStep s = .next t ∧ EndsIn n t := by
  obtain he | ⟨hn, _⟩ := h
  · exact ⟨s, encoderStep_of_not_busy (by simp [State.busy, statusState, he]), .inl he⟩
  · cases hs : s.seq with
    | full =>
      simp only [encoderStep, hs]
      obtain ⟨_, mem, _, hr⟩ | ⟨_, _, _, _, _, hr⟩ := fullStep_cases hi hs
      · exact ⟨_, hr, advance_endsIn hs hn⟩
      · exact ⟨_, hr, .inl rfl⟩
    | tail =>
      rw [stepsLeft_tail hs] at hn
      simp only [encoderStep, hs]
      obtain ⟨_, _, _, _, hr, _⟩ | ⟨_, _, _, _, _, hr⟩ := tailStep_cases hi hs
      · exact ⟨_, hr, .inr ⟨by rw [stepsLeft_finish]; omega, by simp⟩⟩
      · exact ⟨_, hr, .inl rfl⟩
    | idle | done | error => simp [stepsLeft, hs] at hn

theorem run_endsIn (k : Nat) {n : Nat} {s : State} {rest : List Turn} (hi : Invariant s) (h : EndsIn (k + n) s)
    (hs : s.schedule = List.replicate k .encoder ++ rest) :
    ∃ t, run k s = .next t ∧ EndsIn n t ∧ t.schedule = rest := by
  induction k generalizing s with
  | zero => exact ⟨s, rfl, by rwa [Nat.zero_add] at h, hs⟩
  | succ k ih =>
    have hi' := invariant_caller hi (List.replicate k .encoder ++ rest) s.streams s.draws
    obtain ⟨t, ht, hend⟩ := encoderStep_endsIn hi' (show EndsIn (k + n + 1) _ by rwa [Nat.add_right_comm])
    have hstep : step s = .next t := (step_of_schedule hs).trans ht
    rw [run_succ, hstep, andThen_next]
    exact ih (encoderStep_invariant hi' ht) hend (encoderStep_schedule hi' ht)

/-- Settles O30: `EndsIn` counts the steps left down to 0, where the transaction has ended; above 0 it is under way or
in ERROR. -/
theorem everyTransactionEnds : Obligations.EveryTransactionEnds := by
  intro s rest hi hb hs
  have hend := EndsIn.of_busy hb
  obtain ⟨t, hrun, ht, hrest⟩ := run_endsIn (stepsLeft s) (n := 0) hi hend hs
  refine ⟨t, hrun, ht.ended, hrest, fun k hk => ?_⟩
  obtain ⟨m, hm⟩ := Nat.exists_eq_add_of_lt hk
  rw [hm, Nat.add_assoc] at hend hs
  rw [List.replicate_add, List.append_assoc] at hs
  obtain ⟨u, hu, hunder, _⟩ := run_endsIn k hi hend hs
  exact ⟨u, hu, hunder.underway⟩

end Sys2Proof.Machine
end
